-- ==== Sys2Proof/Config.lean ====
section
/-! DEFINITION. What an implementation of HammingCodec fixes (the widths of 00_scope.md, section 3) and the free
values that stand where the spec says UNSPECIFIED. -/

namespace Sys2Proof.Config

/-- `W`, the bits of a Word. The spec leaves it a parameter and instantiates 64 (R2, D2); the datapath functions
take the width as an argument, this is the value at which the machine is built. DESIGN CHOICE (log 1), safe. -/
abbrev W : Nat := 64

/-- `RW`, the bits of the `r` field (R5). -/
abbrev RW : Nat := 8

/-- `CW`, the bits of a command word `CMD` (R32). -/
abbrev CW : Nat := 1 + RW + W

/-- `SW`, the bits of a response word `RSP` (R33). -/
abbrev SW : Nat := 4 + W

/-- `R_MAX` for words of `w` bits: the largest legal `r` (R4). -/
def rMax (w : Nat) : Nat := Nat.log2 (w + 1)

/-- FREE VALUE: what `rsp_word` carries when the command word `cmd` faults as the `i`-th faulting command (R105, D11, U6). No
value of it can be proved. That it is a function of the two is a DESIGN CHOICE (log 4), unsafe for a claim that two faulting
responses with the same command and the same count are equal. -/
opaque freeWord (cmd : BitVec CW) (i : Nat) : BitVec W

/-- FREE VALUE: what `rsp_has_error` carries when the command word `cmd` faults as the `i`-th faulting command (R105, D11, U6).
As for `freeWord`: DESIGN CHOICE (log 4). -/
opaque freeHasError (cmd : BitVec CW) (i : Nat) : Bool

end Sys2Proof.Config
end

