-- ==== Sys2Proof/Word.lean ====
section
/-! DEFINITION. The Word of R12 and its three logical types (R8). -/

namespace Sys2Proof

/-- A Word at the machine's width: what the ports `cmd_word` and `rsp_word` carry (R12, R30). -/
abbrev Word := BitVec Config.W

/-- A Word used as `data`, "the information payload, right-justified" (R8). -/
structure Data (w : Nat) where
  bits : BitVec w
  deriving DecidableEq, Repr

/-- A Word used as `encoded`, the codeword "containing interleaved parity and data bits" (R8). -/
structure Encoded (w : Nat) where
  bits : BitVec w
  deriving DecidableEq, Repr

/-- A Word used as `decoded`, "reconstructed `data`, output of decode" (R8). -/
structure Decoded (w : Nat) where
  bits : BitVec w
  deriving DecidableEq, Repr

end Sys2Proof
end

