-- ==== Sys2Proof/Syntax.lean ====
section
/-! DEFINITION. The commands of the block: one constructor per row of spec/opcode_table.json (R34). -/

namespace Sys2Proof

/-- A command of the block, in the place of an instruction (R1, R34). `r` is the source's `nParityBits` (R5). -/
inductive Instr where
  /-- ENCODE: `encode(data, r)` (R60). -/
  | encode (r : BitVec Config.RW) (data : Data Config.W)
  /-- DECODE: `decode(encoded, r)` (R70). -/
  | decode (r : BitVec Config.RW) (encoded : Encoded Config.W)
  deriving DecidableEq, Repr

end Sys2Proof
end

