-- ==== Sys2Proof/WellFormed.lean ====
section
/-! DEFINITION. The legal commands: those that R39's table of illegal commands does not list. Every command, legal
or not, decodes and is answered; an illegal one is answered by a fault (Machine/Operands.lean). -/

namespace Sys2Proof

/-- The `r` of a command is legal for words of `w` bits: `0 ≤ r ≤ R_MAX` (R4). -/
def rLegal (w r : Nat) : Bool := decide (r ≤ Config.rMax w)

/-- ENCODE's operand has no bit above `k = 2^r − 1 − r` (R39, R102). -/
def dataLegal {w : Nat} (r : Nat) (data : Data w) : Bool := decide (data.bits.toNat < 2 ^ (2 ^ r - 1 - r))

/-- DECODE's operand has no bit above `n = 2^r − 1` (R39, R103). -/
def encodedLegal {w : Nat} (r : Nat) (encoded : Encoded w) : Bool := decide (encoded.bits.toNat < 2 ^ (2 ^ r - 1))

/-- A command is well formed when no precondition of R39 is violated. -/
def Instr.wellFormed : Instr → Bool
  | .encode r data => rLegal Config.W r.toNat && dataLegal r.toNat data
  | .decode r encoded => rLegal Config.W r.toNat && encodedLegal r.toNat encoded

end Sys2Proof
end

