-- ==== Sys2Proof/Decode.lean ====
section
/-! DEFINITION. The command word `CMD` of R32: the decoder, and after it the encoder, both written from R32's field
table (`op` = CMD[72], `r` = CMD[71:64], `word` = CMD[63:0]) and R34's operation select. -/

namespace Sys2Proof

/-- The field `op` of a command word (R32). -/
def opField (cmd : BitVec Config.CW) : BitVec 1 := cmd.extractLsb' (Config.W + Config.RW) 1

/-- The field `r` of a command word (R32). -/
def rField (cmd : BitVec Config.CW) : BitVec Config.RW := cmd.extractLsb' Config.W Config.RW

/-- The field `word` of a command word (R32). -/
def wordField (cmd : BitVec Config.CW) : Word := cmd.extractLsb' 0 Config.W

/-- The decoder: every command word is some command (R39), `op = 0` ENCODE and `op = 1` DECODE (R34). -/
def decodeCommand (cmd : BitVec Config.CW) : Instr :=
  if opField cmd = 0#1 then .encode (rField cmd) ⟨wordField cmd⟩ else .decode (rField cmd) ⟨wordField cmd⟩

/-- Why a number is no command word. -/
inductive DecodeError where
  /-- It has a bit above `CMD[CW−1]`: "there is one length and no variable-length form" (R32). Raised by
  `decodeNumber`. DESIGN CHOICE (log 7), safe. -/
  | widerThanCommandWord
  deriving DecidableEq, Repr

/-- The decoder on any number, bit 0 the least-significant: a number of more than `CW` bits is refused by name. -/
def decodeNumber (v : Nat) : Except DecodeError Instr :=
  if v < 2 ^ Config.CW then .ok (decodeCommand (BitVec.ofNat Config.CW v)) else .error .widerThanCommandWord

/-- The operation select of a command (R34). -/
def opOf : Instr → BitVec 1
  | .encode _ _ => 0#1
  | .decode _ _ => 1#1

/-- The parameter `r` of a command (R32). -/
def rOf : Instr → BitVec Config.RW
  | .encode r _ => r
  | .decode r _ => r

/-- The Word of a command (R32). -/
def wordOf : Instr → Word
  | .encode _ data => data.bits
  | .decode _ encoded => encoded.bits

/-- The encoder: `CMD = {cmd_op, cmd_r, cmd_word}` (R32). -/
def commandWord (i : Instr) : BitVec Config.CW := opOf i ++ rOf i ++ wordOf i

/-- The command that a table word stands for, `w`'s bits at and above `nbits` read as zero. -/
def decodeTableWord (nbits w : Nat) : Option Instr := (decodeNumber (w % 2 ^ nbits)).toOption

end Sys2Proof
end

