-- ==== Sys2Proof/Machine/State.lean ====
section
/-! DEFINITION. The state of the model, plain data: the port wires of R30 and the counter of free values. The block
itself holds no state (R10); the wires stand here because a step reads its inputs from State and leaves its outputs
there. DESIGN CHOICE (log 2), unsafe where a claim reads the response wires of a state that no step has just left. -/

namespace Sys2Proof.Machine

/-- The three faults of R100, reported in-band on the response port. They are no outcome `fault` of a step: taking one
is a next state (`raiseFault`). DEDUCED (log 5), safe. -/
inductive Cause where
  /-- `2^r − 1 > W` (R101). -/
  | rRange
  /-- ENCODE, `r` legal, `data ≥ 2^k` (R102). -/
  | dataRange
  /-- DECODE, `r` legal, `encoded ≥ 2^n` (R103). -/
  | codewordRange
  deriving DecidableEq, Repr

/-- Why a step stops with a fault. -/
inductive Fault where
  /-- A primitive (`getBit`, `setBit`) was called with a bit index outside `1..W`, where it has no value (R50, R51, U4).
  Raised by `execEncode` and `execDecode` when their datapath answers no value, which R107 says never happens. DEDUCED
  (log 10), safe. -/
  | badBitIndex
  deriving DecidableEq, Repr

/-- Why a step gives no meaning. -/
inductive Refusal where
  /-- A command that `exec` does not model yet, by its mnemonic. Raised by no arm of this model; safe. -/
  | notModelled (mnemonic : String)
  deriving DecidableEq, Repr

/-- What the host samples on the response port (R31). -/
structure Response where
  /-- `rsp_fault`. -/
  fault : Bool
  /-- `rsp_cause`. -/
  cause : BitVec 2
  /-- `rsp_has_error`. -/
  hasError : Bool
  /-- `rsp_word`. -/
  word : Word
  deriving DecidableEq, Repr

/-- The wires of the command port and of the response port (R30), and the model's own counter of draws. -/
structure State where
  /-- `cmd_valid`, input. -/
  cmdValid : Bool
  /-- `cmd_op`, input: 0 ENCODE, 1 DECODE (R34). -/
  cmdOp : BitVec 1
  /-- `cmd_r`, input: `r` (R5). -/
  cmdR : BitVec Config.RW
  /-- `cmd_word`, input: bit index `i` on wire `i − 1` (R21). -/
  cmdWord : Word
  /-- `rsp_valid`, output. -/
  rspValid : Bool
  /-- `rsp_word`, output. -/
  rspWord : Word
  /-- `rsp_has_error`, output: the block's one flag (R14). -/
  rspHasError : Bool
  /-- `rsp_fault`, output (R104). -/
  rspFault : Bool
  /-- `rsp_cause`, output (R100). -/
  rspCause : BitVec 2
  /-- The model's own field, not the spec's: how many faulting responses have drawn free values (log 4). -/
  draws : Nat
  deriving DecidableEq, Repr

/-- The state before the host drives anything. The block has no reset (R120); the command wires at 0 with `cmd_valid`
low are a DESIGN CHOICE (log 3), unsafe, and the response wires are the function of those inputs (R19). -/
def State.reset : State where
  cmdValid := false
  cmdOp := 0
  cmdR := 0
  cmdWord := 0
  rspValid := false
  rspWord := 0
  rspHasError := false
  rspFault := false
  rspCause := 0
  draws := 0

end Sys2Proof.Machine
end

