-- ==== Sys2Proof/Machine/Flags.lean ====
section
/-! DEFINITION. Every flag the block computes: `has_error` and the fault wires (R14). -/

namespace Sys2Proof.Machine

/-- DECODE's flag, `has_error = (syn ≠ 0)` (R76). -/
def errorFlag (syn : Nat) : Bool := decide (syn ≠ 0)

/-- The cause code of a fault (R100). -/
def causeCode : Cause → BitVec 2
  | .rRange => 1
  | .dataRange => 2
  | .codewordRange => 3

/-- `rsp_cause`: the code of the fault, 0 when there is none (R104). -/
def causeWire : Option Cause → BitVec 2
  | none => 0
  | some c => causeCode c

/-- `rsp_fault = (rsp_cause ≠ 0)` (R104). -/
def faultWire (cause : BitVec 2) : Bool := decide (cause ≠ 0)

end Sys2Proof.Machine
end

