-- ==== Sys2Proof/Machine/Ops.lean ====
section
/-! DEFINITION. The named operations: the bit primitives of 40_primitives.md, at any word width `w`, and the operations on
the ports. Reporting a fault (`raiseFault`) is the one shared operation that takes an exception; there is no return
from one (R110). -/

namespace Sys2Proof.Machine

/-! ### Bit primitives -/

/-- The walk `1..n`, in ascending order (R57). -/
def positions (n : Nat) : List Nat := List.range' 1 n

/-- `get_bit` (R50): the bit at the 1-based index, and no value outside `1..W` (U4). -/
def getBit {w : Nat} (word : BitVec w) (bitIndex : Nat) : Option Bool :=
  if 1 ≤ bitIndex ∧ bitIndex ≤ w then some ((word >>> (bitIndex - 1)) &&& 1#w != 0#w) else none

/-- `set_bit` (R51): the word with the bit at the 1-based index forced, and no value outside `1..W` (U4). -/
def setBit {w : Nat} (word : BitVec w) (bitIndex : Nat) (bitValue : Bool) : Option (BitVec w) :=
  if 1 ≤ bitIndex ∧ bitIndex ≤ w then
    let mask := 1#w <<< (bitIndex - 1)
    some ((word &&& ~~~mask) ||| (if bitValue then mask else 0#w))
  else none

/-- `n_encoded_bits` (R52), over the natural numbers. -/
def nEncodedBits (r : Nat) : Nat := 2 ^ r - 1

/-- The number of data bits, `k = n − r` (R3). -/
def nDataBits (r : Nat) : Nat := nEncodedBits r - r

/-- `is_parity_position` (R53), in its second form; false at the invalid index 0 (D14). -/
def isParityPosition (bitIndex : Nat) : Bool := decide (bitIndex ≠ 0 ∧ bitIndex &&& (bitIndex - 1) = 0)

/-- `cover(p, i)`: position `i` is covered by the check at `p` (R54, C1). -/
def cover (p i : Nat) : Bool := decide (i &&& p ≠ 0)

/-- One position of `compute_parity`'s loop (R54). -/
def parityStep {w : Nat} (word : BitVec w) (p : Nat) (acc : Bool) (i : Nat) : Option Bool :=
  if !isParityPosition i && cover p i then do
    let b ← getBit word i
    return acc ^^ b
  else some acc

/-- `compute_parity` (R54): the exclusive-or of the data positions in `1..nBits` that `p` covers, 0 when there is none. -/
def computeParity {w : Nat} (word : BitVec w) (p nBits : Nat) : Option Bool :=
  (positions nBits).foldlM (parityStep word p) false

/-! ### The ports -/

/-- The command on the command port, written as a command word (R32). -/
def commandWires (s : State) : BitVec Config.CW := s.cmdOp ++ s.cmdR ++ s.cmdWord

/-- The host's move: it puts a command on the command port and raises `cmd_valid` (R31).
DESIGN CHOICE (log 6), safe. -/
def placeCommand (cmd : BitVec Config.CW) (s : State) : State :=
  { s with cmdValid := true, cmdOp := opField cmd, cmdR := rField cmd, cmdWord := wordField cmd }

/-- The host presents a command (R31). -/
def present (i : Instr) (s : State) : State := placeCommand (commandWord i) s

/-- The host samples the response port (R31). -/
def response (s : State) : Response where
  fault := s.rspFault
  cause := s.rspCause
  hasError := s.rspHasError
  word := s.rspWord

/-- A response written as one word, `RSP = {rsp_fault, rsp_cause, rsp_has_error, rsp_word}` (R33). -/
def responseWord (rsp : Response) : BitVec Config.SW :=
  BitVec.ofBool rsp.fault ++ rsp.cause ++ BitVec.ofBool rsp.hasError ++ rsp.word

/-- Driving the response port, every wire of it; `rsp_valid = cmd_valid` (R31). -/
def drive (word : Word) (hasError : Bool) (cause : Option Cause) (s : State) : State :=
  { s with
    rspValid := s.cmdValid
    rspWord := word
    rspHasError := hasError
    rspFault := faultWire (causeWire cause)
    rspCause := causeWire cause }

/-- `raise Fault(cause)` (R104) of the command `i`: the cause is reported in the response of the faulting command, `rsp_word`
and `rsp_has_error` are free values (R105), and nothing else happens. R105 leaves open what the free values may depend on: that
they are drawn from the faulting command and the count of faults before it, and from nothing else, is a DESIGN CHOICE (log 4),
unsafe for a claim that two such responses with the same command and count are equal. -/
def raiseFault (cause : Cause) (i : Instr) (s : State) : State :=
  { drive (Config.freeWord (commandWord i) s.draws) (Config.freeHasError (commandWord i) s.draws) (some cause) s with
    draws := s.draws + 1 }

end Sys2Proof.Machine
end

