-- ==== Sys2Proof/Machine/Operands.lean ====
section
/-! DEFINITION. The operands of a command: how they are read from the port (R38: plain slicing, all unsigned) and the
precondition stage that each operation runs first (R61, R71). -/

namespace Sys2Proof.Machine

/-- The command that the command port holds (R31, R34). -/
def fetch (s : State) : Instr := decodeCommand (commandWires s)

/-- The condition of fault R_RANGE: `n_encoded_bits(r) > W`, over the natural numbers (R101). -/
def rOutOfRange (w r : Nat) : Bool := decide (nEncodedBits r > w)

/-- ENCODE's precondition stage (R61): R_RANGE first, then DATA_RANGE (R106). -/
def encodeFault {w : Nat} (r : Nat) (data : Data w) : Option Cause :=
  if rOutOfRange w r then some .rRange
  else if data.bits.toNat ≥ 2 ^ nDataBits r then some .dataRange
  else none

/-- DECODE's precondition stage (R71): R_RANGE first, then CODEWORD_RANGE (R106). -/
def decodeFault {w : Nat} (r : Nat) (encoded : Encoded w) : Option Cause :=
  if rOutOfRange w r then some .rRange
  else if encoded.bits.toNat ≥ 2 ^ nEncodedBits r then some .codewordRange
  else none

end Sys2Proof.Machine
end

