-- ==== Sys2Proof/Machine/Decoder.lean ====
section
/-! DEFINITION. The decoder (42_decoder.md): the syndrome calculator, the error locator with the bit-correction multiplexer,
the data extractor, and the meaning of DECODE. The stages are stated for any word width `w`. -/

namespace Sys2Proof.Machine

/-- One position of the syndrome calculator's walk: a failing check is OR-ed in (R72, C2). -/
def syndromeStep {w : Nat} (n : Nat) (encoded : BitVec w) (syn p : Nat) : Option Nat :=
  if isParityPosition p then do
    let expected ← computeParity encoded p n
    let actual ← getBit encoded p
    return if expected != actual then syn ||| p else syn
  else some syn

/-- The syndrome calculator (R72). -/
def syndrome {w : Nat} (n : Nat) (encoded : BitVec w) : Option Nat :=
  (positions n).foldlM (syndromeStep n encoded) 0

/-- The error locator and the bit-correction multiplexer (R73, R74): bit `syn` is flipped, none when `syn = 0`. -/
def correct {w : Nat} (syn : Nat) (encoded : BitVec w) : Option (BitVec w) :=
  if syn ≠ 0 then do
    let b ← getBit encoded syn
    setBit encoded syn (!b)
  else some encoded

/-- One position of the extractor's walk: the output and the count of parity positions seen (R75). -/
def extractStep {w : Nat} (corrected : BitVec w) (st : BitVec w × Nat) (pos : Nat) : Option (BitVec w × Nat) :=
  if isParityPosition pos then some (st.1, st.2 + 1)
  else do
    let b ← getBit corrected pos
    let out ← setBit st.1 (pos - st.2) b
    return (out, st.2)

/-- The data extractor (R75): the non-parity positions of `1..n`, packed least-significant first. -/
def extract {w : Nat} (n : Nat) (corrected : BitVec w) : Option (BitVec w) :=
  ((positions n).foldlM (extractStep corrected) (0#w, 0)).map Prod.fst

/-- DECODE's datapath (R70 after its checks): the decoded word and `hasError`. -/
def decodeWord {w : Nat} (r : Nat) (encoded : Encoded w) : Option (Decoded w × Bool) := do
  let syn ← syndrome (nEncodedBits r) encoded.bits
  let corrected ← correct syn encoded.bits
  let out ← extract (nEncodedBits r) corrected
  return (⟨out⟩, errorFlag syn)

/-- DECODE (R70): the checks of R71, then the datapath (R77). -/
def execDecode (r : BitVec Config.RW) (encoded : Encoded Config.W) (s : State) : Host.Outcome State Fault Refusal :=
  match decodeFault r.toNat encoded with
  | some cause => .next (raiseFault cause (.decode r encoded) s)
  | none =>
    match decodeWord r.toNat encoded with
    | some (decoded, hasError) => .next (drive decoded.bits hasError none s)
    | none => .fault .badBitIndex

end Sys2Proof.Machine
end

