-- ==== Sys2Proof/Machine/Encoder.lean ====
section
/-! DEFINITION. The encoder (41_encoder.md): the parity-bit interleaver, the parity-tree calculator with parity insertion,
and the meaning of ENCODE. The stages are stated for any word width `w`. -/

namespace Sys2Proof.Machine

/-- One position of the interleaver's walk: the accumulator and the count of parity positions seen (R62). -/
def interleaveStep {w : Nat} (data : BitVec w) (st : BitVec w × Nat) (pos : Nat) : Option (BitVec w × Nat) :=
  if isParityPosition pos then some (st.1, st.2 + 1)
  else do
    let b ← getBit data (pos - st.2)
    let acc ← setBit st.1 pos b
    return (acc, st.2)

/-- The parity-bit interleaver (R62): the data bits, least-significant first, at the non-parity positions of `1..n`. -/
def interleave {w : Nat} (n : Nat) (data : BitVec w) : Option (BitVec w) :=
  ((positions n).foldlM (interleaveStep data) (0#w, 0)).map Prod.fst

/-- One position of the parity tree's walk: a parity position gets its parity (R63, R64). -/
def insertParityStep {w : Nat} (n : Nat) (acc : BitVec w) (pos : Nat) : Option (BitVec w) :=
  if isParityPosition pos then do
    let b ← computeParity acc pos n
    setBit acc pos b
  else some acc

/-- The parity-tree calculator and parity insertion (R63, R64), each parity inserted as soon as it is computed. -/
def insertParities {w : Nat} (n : Nat) (acc : BitVec w) : Option (BitVec w) :=
  (positions n).foldlM (insertParityStep n) acc

/-- ENCODE's datapath (R60 after its checks). -/
def encodeWord {w : Nat} (r : Nat) (data : Data w) : Option (Encoded w) := do
  let acc ← interleave (nEncodedBits r) data.bits
  let acc ← insertParities (nEncodedBits r) acc
  return ⟨acc⟩

/-- ENCODE (R60): the checks of R61, then the datapath; `rsp_has_error` is driven 0 (R66). -/
def execEncode (r : BitVec Config.RW) (data : Data Config.W) (s : State) : Host.Outcome State Fault Refusal :=
  match encodeFault r.toNat data with
  | some cause => .next (raiseFault cause (.encode r data) s)
  | none =>
    match encodeWord r.toNat data with
    | some encoded => .next (drive encoded.bits false none s)
    | none => .fault .badBitIndex

end Sys2Proof.Machine
end

