-- ==== Sys2Proof/Machine/Dispatch.lean ====
section
/-! DEFINITION. One arm per command: a direct call of its meaning. -/

namespace Sys2Proof.Machine

def exec (i : Instr) (s : State) : Host.Outcome State Fault Refusal :=
  match i with
  | .encode r data => Sys2Proof.Machine.execEncode r data s
  | .decode r encoded => Sys2Proof.Machine.execDecode r encoded s

end Sys2Proof.Machine
end

