-- ==== Sys2Proof/Machine/Step.lean ====
section
/-! DEFINITION. One step is one evaluation of the block: the response wires become the function of the command wires,
whatever `cmd_valid` is (R31). The model has no time: DESIGN CHOICE (log 8), unsafe when a host samples while its inputs
change. -/

namespace Sys2Proof.Machine

/-- One evaluation (R31). With `cmd_valid = 1` it is a transaction. -/
def step (s : State) : Host.Outcome State Fault Refusal := exec (fetch s) s

/-- The command that the table word `w` stands for, on the command port with `cmd_valid` raised (log 6). -/
def State.withFetchWord (s : State) (nbits w : Nat) : State :=
  placeCommand (BitVec.ofNat Config.CW (w % 2 ^ nbits)) s

end Sys2Proof.Machine
end

