-- ==== Sys2Proof/Machine/Session.lean ====
section
/-! DEFINITION. Transactions and runs as the host makes them: a "program" is a list of commands presented in order (R16,
R126). The block holds no log; the responses are what the host has sampled (D26).
DESIGN CHOICE (log 11), safe. -/

namespace Sys2Proof.Machine

/-- One transaction (R31): the host presents the command with `cmd_valid = 1` and the block is evaluated. -/
def transact (i : Instr) (s : State) : Host.Outcome State Fault Refusal := step (present i s)

/-- A run (R126): the commands in order, one transaction each, and the responses sampled. R126 says only that the host then
"presents no further command": that the command port is left as the last transaction had it, `cmd_valid` still raised, is a
DESIGN CHOICE (log 12), unsafe for a claim about the command port after a run. -/
def runSession : List Instr → State → Host.Outcome (State × List Response) Fault Refusal
  | [], s => .next (s, [])
  | i :: is, s =>
    match transact i s with
    | .next t =>
      match runSession is t with
      | .next (u, rs) => .next (u, response t :: rs)
      | .fault f => .fault f
      | .refused f => .refused f
    | .fault f => .fault f
    | .refused f => .refused f

end Sys2Proof.Machine
end

