-- ==== Sys2Proof/Safety.lean ====
section
/-! DEFINITION. The terms in which the claims speak: the notation of 00_scope.md section 4, the closed forms of 30_encoding.md
section 3, what of a response is defined, and when the response port agrees with the command port. -/

namespace Sys2Proof

open Machine

/-- `x{i}`, the bit at the 1-based index `i` of `x` (R6, R68), as a total function: false outside `1..w`. -/
def bitAt {w : Nat} (x : BitVec w) (i : Nat) : Bool := decide (1 ≤ i) && x.getLsbD (i - 1)

/-- `e(i)`, the Word with only bit index `i` set (43_codec_laws.md). -/
def oneBit (w i : Nat) : BitVec w := 1#w <<< (i - 1)

/-- `bitlen(v)` (00_scope.md, section 4). -/
def bitLen (v : Nat) : Nat := if v = 0 then 0 else Nat.log2 v + 1

/-- A data position of a codeword: a positive index that is no power of two (R35). -/
def IsDataPos (pos : Nat) : Prop := 1 ≤ pos ∧ ∀ j, pos ≠ 2 ^ j

/-- The XOR of `f i` over `i` in `1..n`. -/
def xorOver (n : Nat) (f : Nat → Bool) : Bool := (positions n).foldl (fun acc i => acc ^^ f i) false

/-- The XOR of the bit indices in `1..n` at which `x` has a 1 (R72, R89). -/
def indexXor {w : Nat} (n : Nat) (x : BitVec w) : Nat :=
  (positions n).foldl (fun acc i => if bitAt x i then acc ^^^ i else acc) 0

/-- `popcount` of a Word (00_scope.md, section 4). -/
def popcount {w : Nat} (x : BitVec w) : Nat := ((positions w).filter (bitAt x)).length

/-- `M(j, nBits)`, the mask of the data positions that check `j` covers (R55). -/
def coverMask (w j nBits : Nat) : BitVec w :=
  (positions nBits).foldl (fun acc i => if i &&& 2 ^ j ≠ 0 ∧ i ≠ 2 ^ j then acc ||| oneBit w i else acc) 0#w

/-- `r` is legal at the machine's width, `0 ≤ r ≤ R_MAX = 6` (R4). -/
def LegalR (r : BitVec Config.RW) : Prop := r.toNat ≤ 6

/-- Legal data, `data < 2^k` (R61). -/
def LegalData (r : BitVec Config.RW) (data : Data Config.W) : Prop := data.bits.toNat < 2 ^ (2 ^ r.toNat - 1 - r.toNat)

/-- A legal DECODE operand, `encoded < 2^n` (R71). -/
def LegalEncoded (r : BitVec Config.RW) (encoded : Encoded Config.W) : Prop := encoded.bits.toNat < 2 ^ (2 ^ r.toNat - 1)

/-- What of a response is defined: the cause, and, when there is no fault, the word and the flag (R105). -/
def observed (rsp : Response) : BitVec 2 × Option (Word × Bool) :=
  (rsp.cause, if rsp.fault then none else some (rsp.word, rsp.hasError))

/-- The state `t` that an outcome `next t` holds. -/
def nextState (o : Host.Outcome State Fault Refusal) : Option State :=
  match o with
  | .next t => some t
  | .fault _ => none
  | .refused _ => none

/-- `rsp_cause` as the rule's formula gives it from the command wires, for `W = 64` (R104). -/
def causeFormula (op : BitVec 1) (r : BitVec Config.RW) (word : Word) : BitVec 2 :=
  if r.toNat > 6 then 1
  else if op = 0 ∧ word.toNat ≥ 2 ^ (2 ^ r.toNat - 1 - r.toNat) then 2
  else if op = 1 ∧ word.toNat ≥ 2 ^ (2 ^ r.toNat - 1) then 3
  else 0

/-- `c` is the codeword of `data` for `r` parity bits (R62, R64): the data bits at the data positions, even parity on each
check, nothing above `n`. -/
def IsCodewordOf {w : Nat} (r : Nat) (data c : BitVec w) : Prop :=
  (∀ pos, IsDataPos pos → pos ≤ 2 ^ r - 1 → bitAt c pos = bitAt data (pos - bitLen pos)) ∧
  (∀ j, j < r → xorOver (2 ^ r - 1) (fun i => decide (i &&& 2 ^ j ≠ 0) && bitAt c i) = false) ∧
  c.toNat < 2 ^ (2 ^ r - 1)

/-- `out` is the data that the decoder reads from `x` for `r` parity bits (R72 to R75): the data positions of `x` with the bit
at the syndrome flipped, nothing above `k`. -/
def IsDecodedOf {w : Nat} (r : Nat) (x out : BitVec w) : Prop :=
  (∀ pos, IsDataPos pos → pos ≤ 2 ^ r - 1 →
    bitAt out (pos - bitLen pos) = (bitAt x pos ^^ decide (pos = indexXor (2 ^ r - 1) x))) ∧
  out.toNat < 2 ^ (2 ^ r - 1 - r)

/-- The response wires agree with the command wires (R31): the validity, the cause and fault wires of R104, and, when there
is no fault, the word and the flag of the selected operation (R60, R70). -/
def Settled (s : State) : Prop :=
  s.rspValid = s.cmdValid ∧
  s.rspCause = causeFormula s.cmdOp s.cmdR s.cmdWord ∧
  s.rspFault = decide (s.rspCause ≠ 0) ∧
  (s.rspFault = false → s.cmdOp = 0 → s.rspHasError = false ∧ IsCodewordOf s.cmdR.toNat s.cmdWord s.rspWord) ∧
  (s.rspFault = false → s.cmdOp = 1 →
    s.rspHasError = decide (indexXor (2 ^ s.cmdR.toNat - 1) s.cmdWord ≠ 0) ∧ IsDecodedOf s.cmdR.toNat s.cmdWord s.rspWord)

end Sys2Proof
end

