-- ==== Sys2Proof/Certificates/Slice0/Obligations.lean ====
section
/-! DEFINITION. The statements for the provers, in the order of the spec: encoding, primitives, stages, the two commands,
faults, the laws of the codec, whole-machine properties. None of them names a free value. -/

open Sys2Proof Sys2Proof.Machine

/-! ### The command word and the response word (30_encoding.md) -/

/-- R32: the three fields of a command word, for every command. -/
def Obligations.CommandWordFields : Prop :=
  (∀ (r : BitVec 8) (data : Data 64),
    (commandWord (.encode r data)).extractLsb' 72 1 = 0#1 ∧
    (commandWord (.encode r data)).extractLsb' 64 8 = r ∧
    (commandWord (.encode r data)).extractLsb' 0 64 = data.bits) ∧
  (∀ (r : BitVec 8) (encoded : Encoded 64),
    (commandWord (.decode r encoded)).extractLsb' 72 1 = 1#1 ∧
    (commandWord (.decode r encoded)).extractLsb' 64 8 = r ∧
    (commandWord (.decode r encoded)).extractLsb' 0 64 = encoded.bits)

/-- R33: the four fields of a response word, for every response. -/
def Obligations.ResponseWordFields : Prop :=
  ∀ rsp : Response,
    (responseWord rsp).extractLsb' 67 1 = BitVec.ofBool rsp.fault ∧
    (responseWord rsp).extractLsb' 65 2 = rsp.cause ∧
    (responseWord rsp).extractLsb' 64 1 = BitVec.ofBool rsp.hasError ∧
    (responseWord rsp).extractLsb' 0 64 = rsp.word

/-- R34: the operation select, on every command word. -/
def Obligations.OperationSelect : Prop :=
  ∀ cmd : BitVec 73,
    (cmd.getLsbD 72 = false → decodeCommand cmd = .encode (cmd.extractLsb' 64 8) ⟨cmd.extractLsb' 0 64⟩) ∧
    (cmd.getLsbD 72 = true → decodeCommand cmd = .decode (cmd.extractLsb' 64 8) ⟨cmd.extractLsb' 0 64⟩)

/-- R32, R34, R39: decoding the command word of a command gives the command, for every command and every operand value, also
through the number that a table word is. -/
def Obligations.DecodeOfEncodeIsTheCommand : Prop :=
  ∀ i : Instr, decodeCommand (commandWord i) = i ∧
    ∀ nbits, 73 ≤ nbits → decodeTableWord nbits (commandWord i).toNat = some i

/-- R32, R39: every command word is the command word of the command it decodes to, so no two command words decode to one
command. -/
def Obligations.EncodeOfDecodeIsTheWord : Prop :=
  ∀ cmd : BitVec 73, commandWord (decodeCommand cmd) = cmd

/-- R39 and log 7 (the refusal of a longer number is the model's choice): exactly the numbers of at most 73 bits decode. -/
def Obligations.NumbersThatDecode : Prop :=
  ∀ v : Nat, (v < 2 ^ 73 → ∃ i, decodeNumber v = .ok i ∧ (commandWord i).toNat = v) ∧
    (2 ^ 73 ≤ v → decodeNumber v = .error .widerThanCommandWord)

/-- 95_test_vectors.md V1, V2, V75, V153: command words that the spec writes out decode to the commands it names. -/
def Obligations.SpecWordsDecode : Prop :=
  decodeNumber 0x003000000000000000A = .ok (.encode 3 ⟨0xA⟩) ∧
  decodeNumber 0x1030000000000000042 = .ok (.decode 3 ⟨0x42⟩) ∧
  decodeNumber 0x00600123456789ABCDE = .ok (.encode 6 ⟨0x123456789ABCDE⟩) ∧
  decodeNumber 0x1FF0000000000000000 = .ok (.decode 255 ⟨0⟩)

/-- R31: a step is the execution of the command that the command port holds, nothing around it. -/
def Obligations.StepRunsTheCommandOnThePort : Prop :=
  ∀ s : State,
    (s.cmdOp = 0 → step s = exec (.encode s.cmdR ⟨s.cmdWord⟩) s) ∧
    (s.cmdOp = 1 → step s = exec (.decode s.cmdR ⟨s.cmdWord⟩) s) ∧
    (∀ i, decodeCommand (commandWires s) = i → step s = exec i s)

/-- R31 and log 6 (the placing of a table word is the model's): a table word that decodes is the command the next step runs,
with `cmd_valid` raised and no wire of the response port changed. -/
def Obligations.FetchWordIsRunNext : Prop :=
  ∀ (s : State) (nbits w : Nat) (i : Instr), decodeTableWord nbits w = some i →
    step (s.withFetchWord nbits w) = exec i (s.withFetchWord nbits w) ∧
    s.withFetchWord nbits w = { s with cmdValid := true, cmdOp := opOf i, cmdR := rOf i, cmdWord := wordOf i }

/-! ### Bit primitives (40_primitives.md), at every word width -/

/-- R50: `get_bit`, inside its precondition and outside. -/
def Obligations.GetBitRule : Prop :=
  (∀ (w : Nat) (x : BitVec w) (i : Nat),
    (1 ≤ i → i ≤ w → ∃ b, getBit x i = some b ∧ b.toNat = (x.toNat >>> (i - 1)) &&& 1) ∧
    (¬(1 ≤ i ∧ i ≤ w) → getBit x i = none)) ∧
  getBit 0x52#64 5 = some true ∧ getBit 0x52#64 1 = some false ∧ getBit 0x52#64 7 = some true

/-- R51: `set_bit`, its formula, and outside its precondition. The clauses on reading the result (at `i`, and at every other
index) and on XOR with the one-bit mask are the laws that R51 marks [derived: from the pseudocode]. -/
def Obligations.SetBitRule : Prop :=
  (∀ (w : Nat) (x : BitVec w) (i : Nat) (b : Bool),
    (1 ≤ i → i ≤ w → ∃ y, setBit x i b = some y ∧
      y = ((x &&& ~~~oneBit w i) ||| (if b then oneBit w i else 0#w)) ∧
      getBit y i = some b ∧
      (∀ j, j ≠ i → getBit y j = getBit x j) ∧
      (getBit x i = some b → y = x) ∧
      (getBit x i = some (!b) → y = x ^^^ oneBit w i)) ∧
    (¬(1 ≤ i ∧ i ≤ w) → setBit x i b = none)) ∧
  setBit 0x42#64 5 true = some 0x52#64 ∧ setBit 0x52#64 5 false = some 0x42#64 ∧ setBit 0#64 3 true = some 4#64

/-- R53 and R88 (with R52): parity positions are the powers of two, and `n_encoded_bits(r) = 2^r − 1` for every natural `r`. R88
speaks of the positive integers up to the word width: the larger indices are R53's "exactly one set bit", and that the
invalid index 0 is none is what R53 marks [derived] (decision D14). -/
def Obligations.ParityPositionsArePowersOfTwo : Prop :=
  (∀ i, isParityPosition i = true ↔ ∃ j, i = 2 ^ j) ∧ ∀ r, nEncodedBits r = 2 ^ r - 1

/-- The spec's derived closed form of `compute_parity` (40_primitives.md, R55): an XOR tree over the covered data positions, and
the parity of a masked word. -/
def Obligations.ComputeParityIsAnXorTree : Prop :=
  ∀ (w : Nat) (x : BitVec w) (j nBits : Nat), 2 ^ j ≤ nBits → nBits ≤ w →
    computeParity x (2 ^ j) nBits =
      some (xorOver nBits (fun i => decide (i &&& 2 ^ j ≠ 0 ∧ i ≠ 2 ^ j) && bitAt x i)) ∧
    computeParity x (2 ^ j) nBits = some (decide (popcount (x &&& coverMask w j nBits) % 2 = 1))

/-- The spec's derived note in R54: a parity depends on no bit at a parity position and on no bit above `nBits`. -/
def Obligations.ParityReadsDataPositionsOnly : Prop :=
  ∀ (w : Nat) (x y : BitVec w) (p nBits : Nat), nBits ≤ w →
    (∀ i, IsDataPos i → i ≤ nBits → bitAt x i = bitAt y i) →
    computeParity x p nBits = computeParity y p nBits

/-- The spec's derived layout of the codeword (30_encoding.md, R36): the parity positions below a data position number
`bitlen(pos)`, and each data bit index has exactly one data position. -/
def Obligations.DataPositionsInOrder : Prop :=
  (∀ pos, IsDataPos pos →
    ((positions (pos - 1)).filter isParityPosition).length = bitLen pos ∧ bitLen pos < pos) ∧
  (∀ r d, 1 ≤ d → d ≤ 2 ^ r - 1 - r → ∃! pos, IsDataPos pos ∧ pos ≤ 2 ^ r - 1 ∧ pos - bitLen pos = d)

/-! ### The stages of the two datapaths, at every word width -/

/-- R62: the parity-bit interleaver. The last clause, that the wiring for a larger `r` gives the same word for legal data, is
the sentence that R62 marks [derived: data bits above `k` are 0]. -/
def Obligations.InterleaverPlacesTheData : Prop :=
  ∀ (w r : Nat) (data : BitVec w), 2 ^ r - 1 ≤ w → ∃ acc, interleave (2 ^ r - 1) data = some acc ∧
    (∀ pos, IsDataPos pos → pos ≤ 2 ^ r - 1 → bitAt acc pos = bitAt data (pos - bitLen pos)) ∧
    (∀ j, j < r → bitAt acc (2 ^ j) = false) ∧
    (∀ pos, 2 ^ r - 1 < pos → bitAt acc pos = false) ∧
    (∀ r', r ≤ r' → 2 ^ r' - 1 ≤ w → data.toNat < 2 ^ (2 ^ r - 1 - r) → interleave (2 ^ r' - 1) data = some acc)

/-- R64 (with R63): each parity position gets its parity, every other position is kept, and every check of the result is even.
That the parity may be computed on the accumulator the walk began with is the sentence that R64 marks [derived]. -/
def Obligations.ParityInsertionMakesChecksEven : Prop :=
  ∀ (w r : Nat) (acc : BitVec w), 2 ^ r - 1 ≤ w → ∃ c, insertParities (2 ^ r - 1) acc = some c ∧
    (∀ pos, (∀ j, j < r → pos ≠ 2 ^ j) → bitAt c pos = bitAt acc pos) ∧
    (∀ j, j < r →
      computeParity acc (2 ^ j) (2 ^ r - 1) = some (bitAt c (2 ^ j)) ∧
      bitAt c (2 ^ j) = xorOver (2 ^ r - 1) (fun i => decide (i &&& 2 ^ j ≠ 0 ∧ i ≠ 2 ^ j) && bitAt c i) ∧
      xorOver (2 ^ r - 1) (fun i => decide (i &&& 2 ^ j ≠ 0) && bitAt c i) = false)

/-- R72: the syndrome calculator, bit by bit. That the syndrome is the XOR of the set indices is the sentence that R72 marks
[derived]. -/
def Obligations.SyndromeIsTheXorOfIndices : Prop :=
  ∀ (w r : Nat) (x : BitVec w), 2 ^ r - 1 ≤ w → ∃ syn, syndrome (2 ^ r - 1) x = some syn ∧
    syn = indexXor (2 ^ r - 1) x ∧ syn ≤ 2 ^ r - 1 ∧
    (∀ j, j < r →
      (∃ q, computeParity x (2 ^ j) (2 ^ r - 1) = some q ∧ syn.testBit j = (q ^^ bitAt x (2 ^ j))) ∧
      syn.testBit j = xorOver (2 ^ r - 1) (fun i => decide (i &&& 2 ^ j ≠ 0) && bitAt x i)) ∧
    (∀ j, r ≤ j → syn.testBit j = false)

/-- R74 (with R73) and R76: the located bit is flipped, no other, and the decoder's flag says whether a bit was flipped (R76).
That the corrected word has syndrome 0 is the sentence that R74 marks [derived: flipping bit `syn` XORs `syn` into the
syndrome]. -/
def Obligations.CorrectionFlipsTheLocatedBit : Prop :=
  ∀ (w r : Nat) (x : BitVec w) (syn : Nat), 2 ^ r - 1 ≤ w → syndrome (2 ^ r - 1) x = some syn →
    ∃ c, correct syn x = some c ∧
      (syn ≠ 0 → c = x ^^^ oneBit w syn) ∧ (syn = 0 → c = x) ∧
      (∀ i, 1 ≤ i → i ≤ 2 ^ r - 1 → bitAt c i = (bitAt x i ^^ decide (syn = i))) ∧
      syndrome (2 ^ r - 1) c = some 0 ∧
      ∃ out, decodeWord r ⟨x⟩ = some (out, decide (syn ≠ 0))

/-- R75: the data extractor. The last clause, that the wiring for a larger `r` gives the same data for a word below `2^n`, is the
sentence that R75 marks [derived]. -/
def Obligations.ExtractorReadsTheDataPositions : Prop :=
  ∀ (w r : Nat) (c : BitVec w), 2 ^ r - 1 ≤ w → ∃ out, extract (2 ^ r - 1) c = some out ∧
    (∀ pos, IsDataPos pos → pos ≤ 2 ^ r - 1 → bitAt out (pos - bitLen pos) = bitAt c pos) ∧
    (∀ d, 1 ≤ d → d ≤ 2 ^ r - 1 - r → ∃ pos, IsDataPos pos ∧ pos ≤ 2 ^ r - 1 ∧ pos - bitLen pos = d ∧
      bitAt out d = bitAt c pos) ∧
    (∀ d, 2 ^ r - 1 - r < d → bitAt out d = false) ∧
    (∀ r', r ≤ r' → 2 ^ r' - 1 ≤ w → c.toNat < 2 ^ (2 ^ r - 1) → extract (2 ^ r' - 1) c = some out)

/-! ### The two commands -/

/-- R60 to R66: a legal ENCODE answers, drives the codeword of its data, the flag and the fault wires 0, and leaves every other
field of the state as it was. That `rsp_has_error` is 0 is the spec's decision D16. -/
def Obligations.EncodeAnswersTheCodeword : Prop :=
  ∀ (r : BitVec 8) (data : Data 64) (s : State), LegalR r → LegalData r data →
    ∃ c : Word, IsCodewordOf r.toNat data.bits c ∧
      exec (.encode r data) s = .next { s with
        rspValid := s.cmdValid, rspWord := c, rspHasError := false, rspFault := false, rspCause := 0 }

/-- R70 to R78: a legal DECODE answers, drives the data of the corrected word and the flag that says whether the syndrome is
non-zero, the fault wires 0, and leaves every other field of the state as it was. -/
def Obligations.DecodeAnswersTheData : Prop :=
  ∀ (r : BitVec 8) (encoded : Encoded 64) (s : State), LegalR r → LegalEncoded r encoded →
    ∃ out : Word, IsDecodedOf r.toNat encoded.bits out ∧
      exec (.decode r encoded) s = .next { s with
        rspValid := s.cmdValid, rspWord := out,
        rspHasError := decide (indexXor (2 ^ r.toNat - 1) encoded.bits ≠ 0), rspFault := false, rspCause := 0 }

/-- The frame of ENCODE and DECODE, for every form of both (R31, R104: no wire other than the response port changes). The last
clause is about the model's own counter (log 4). -/
def Obligations.CommandsChangeTheResponsePortOnly : Prop :=
  ∀ (i : Instr) (s t : State), exec i s = .next t →
    t.cmdValid = s.cmdValid ∧ t.cmdOp = s.cmdOp ∧ t.cmdR = s.cmdR ∧ t.cmdWord = s.cmdWord ∧
    t.rspValid = s.cmdValid ∧ t.draws = s.draws + (if t.rspFault then 1 else 0)

/-- R31 and R107 (the latter derived in the spec): no command is refused and no primitive is called on a bad bit index: every
command, legal or not, answers a next state, and so does every step. -/
def Obligations.EveryCommandAnswers : Prop :=
  (∀ (i : Instr) (s : State), ∃ t, exec i s = .next t) ∧ ∀ s : State, ∃ t, step s = .next t

/-- R39: the commands answered without a fault are exactly the well-formed ones. -/
def Obligations.WellFormedIffNoFault : Prop :=
  ∀ (i : Instr) (s : State), ∃ t, exec i s = .next t ∧ (t.rspFault = false ↔ i.wellFormed = true)

/-! ### Faults (60_exceptions.md) -/

/-- R104: the cause and fault wires after any step, and that nothing else but the response port changes. -/
def Obligations.CauseWiresFollowTheFormula : Prop :=
  ∀ s : State, ∃ t, step s = .next t ∧
    t.rspCause = causeFormula s.cmdOp s.cmdR s.cmdWord ∧
    t.rspFault = decide (t.rspCause ≠ 0) ∧
    t.cmdValid = s.cmdValid ∧ t.cmdOp = s.cmdOp ∧ t.cmdR = s.cmdR ∧ t.cmdWord = s.cmdWord

/-- R101: fault R_RANGE, for both commands, and the equivalent test `r > R_MAX` at every width. -/
def Obligations.RRangeFault : Prop :=
  (∀ w r, nEncodedBits r > w ↔ r > Config.rMax w) ∧ Config.rMax 64 = 6 ∧
  (∀ (r : BitVec 8) (data : Data 64) (s : State), ∃ t, exec (.encode r data) s = .next t ∧
    (t.rspCause = 1 ↔ nEncodedBits r.toNat > 64) ∧ (t.rspCause = 1 ↔ 7 ≤ r.toNat) ∧ (t.rspCause = 1 → t.rspFault = true)) ∧
  (∀ (r : BitVec 8) (encoded : Encoded 64) (s : State), ∃ t, exec (.decode r encoded) s = .next t ∧
    (t.rspCause = 1 ↔ nEncodedBits r.toNat > 64) ∧ (t.rspCause = 1 ↔ 7 ≤ r.toNat) ∧ (t.rspCause = 1 → t.rspFault = true))

/-- R102: fault DATA_RANGE, and the largest legal data for each `r`. -/
def Obligations.DataRangeFault : Prop :=
  (∀ (r : BitVec 8) (data : Data 64) (s : State), ∃ t, exec (.encode r data) s = .next t ∧
    (t.rspCause = 2 ↔ r.toNat ≤ 6 ∧ 2 ^ (2 ^ r.toNat - 1 - r.toNat) ≤ data.bits.toNat) ∧
    (t.rspCause = 2 ↔ r.toNat ≤ 6 ∧ ∃ i, 2 ^ r.toNat - 1 - r.toNat < i ∧ bitAt data.bits i = true) ∧
    (t.rspCause = 2 → t.rspFault = true)) ∧
  (∀ (r : BitVec 8) (encoded : Encoded 64) (s : State), ∃ t, exec (.decode r encoded) s = .next t ∧ t.rspCause ≠ 2) ∧
  (List.range 7).map (fun r => 2 ^ nDataBits r - 1) = [0, 0, 0x1, 0xF, 0x7FF, 0x3FFFFFF, 0x1FFFFFFFFFFFFFF]

/-- R103: fault CODEWORD_RANGE, the largest legal operand for each `r`, and that every operand below `2^n` is legal. -/
def Obligations.CodewordRangeFault : Prop :=
  (∀ (r : BitVec 8) (encoded : Encoded 64) (s : State), ∃ t, exec (.decode r encoded) s = .next t ∧
    (t.rspCause = 3 ↔ r.toNat ≤ 6 ∧ 2 ^ (2 ^ r.toNat - 1) ≤ encoded.bits.toNat) ∧
    (t.rspCause = 3 ↔ r.toNat ≤ 6 ∧ ∃ i, 2 ^ r.toNat - 1 < i ∧ bitAt encoded.bits i = true) ∧
    (t.rspCause = 3 → t.rspFault = true) ∧
    (r.toNat ≤ 6 → encoded.bits.toNat < 2 ^ (2 ^ r.toNat - 1) → t.rspFault = false)) ∧
  (∀ (r : BitVec 8) (data : Data 64) (s : State), ∃ t, exec (.encode r data) s = .next t ∧ t.rspCause ≠ 3) ∧
  (List.range 7).map (fun r => 2 ^ nEncodedBits r - 1) = [0, 0x1, 0x7, 0x7F, 0x7FFF, 0x7FFFFFFF, 0x7FFFFFFFFFFFFFFF]

/-- R106: R_RANGE masks the operand-range faults, and each operation has only its own operand-range fault. -/
def Obligations.RRangeMasksTheOperandFaults : Prop :=
  (∀ (r : BitVec 8) (data : Data 64) (s : State), ∃ t, exec (.encode r data) s = .next t ∧
    (6 < r.toNat → t.rspCause = 1) ∧ (r.toNat ≤ 6 → t.rspCause = 0 ∨ t.rspCause = 2)) ∧
  (∀ (r : BitVec 8) (encoded : Encoded 64) (s : State), ∃ t, exec (.decode r encoded) s = .next t ∧
    (6 < r.toNat → t.rspCause = 1) ∧ (r.toNat ≤ 6 → t.rspCause = 0 ∨ t.rspCause = 3))

/-! ### Laws of the codec (43_codec_laws.md) -/

/-- R85: round trip. -/
def Obligations.RoundTrip : Prop :=
  ∀ (r : BitVec 8) (data : Data 64) (s s' : State), LegalR r → LegalData r data →
    ∃ t t', exec (.encode r data) s = .next t ∧ t.rspFault = false ∧
      exec (.decode r ⟨t.rspWord⟩) s' = .next t' ∧ t'.rspFault = false ∧
      t'.rspWord = data.bits ∧ t'.rspHasError = false

/-- R86: single-bit-error correction. -/
def Obligations.SingleBitErrorsAreCorrected : Prop :=
  ∀ (r : BitVec 8) (data : Data 64) (i : Nat) (s s' : State), LegalR r → LegalData r data →
    1 ≤ i → i ≤ 2 ^ r.toNat - 1 →
    ∃ t t', exec (.encode r data) s = .next t ∧ t.rspFault = false ∧
      exec (.decode r ⟨t.rspWord ^^^ oneBit 64 i⟩) s' = .next t' ∧ t'.rspFault = false ∧
      t'.rspWord = data.bits ∧ t'.rspHasError = true

/-- R85 and R86 at every word width `w` in which the codeword fits (R2 leaves the width a parameter), on the datapaths. -/
def Obligations.CodecCorrectsAtEveryWidth : Prop :=
  ∀ (w r : Nat) (data : Data w), 2 ^ r - 1 ≤ w → data.bits.toNat < 2 ^ (2 ^ r - 1 - r) →
    ∃ c, encodeWord r data = some c ∧ decodeWord r c = some (⟨data.bits⟩, false) ∧
      ∀ i, 1 ≤ i → i ≤ 2 ^ r - 1 → decodeWord r ⟨c.bits ^^^ oneBit w i⟩ = some (⟨data.bits⟩, true)

/-- The spec's derived laws R93 and R94 (and the derived half of R87): decoding any legal operand gives legal data, and encoding
that data again gives the operand back when the flag is 0, and the operand with exactly the located bit flipped when it
is 1. When the flag is 1 the operand is itself no codeword, and the codeword of any other legal data differs from the
operand in more than one bit: the codeword found is the nearest and the only one within one bit. -/
def Obligations.EncodeAfterDecodeIsTheNearestCodeword : Prop :=
  ∀ (r : BitVec 8) (encoded : Encoded 64) (s s' : State), LegalR r → LegalEncoded r encoded →
    ∃ t t', exec (.decode r encoded) s = .next t ∧ t.rspFault = false ∧
      LegalData r ⟨t.rspWord⟩ ∧
      exec (.encode r ⟨t.rspWord⟩) s' = .next t' ∧ t'.rspFault = false ∧
      (t.rspHasError = false → t'.rspWord = encoded.bits) ∧
      (t.rspHasError = true → 1 ≤ indexXor (2 ^ r.toNat - 1) encoded.bits ∧
        indexXor (2 ^ r.toNat - 1) encoded.bits ≤ 2 ^ r.toNat - 1 ∧
        t'.rspWord = encoded.bits ^^^ oneBit 64 (indexXor (2 ^ r.toNat - 1) encoded.bits)) ∧
      ∀ other : Data 64, LegalData r other → ∃ u, exec (.encode r other) s' = .next u ∧ u.rspFault = false ∧
        (t.rspHasError = true → u.rspWord ≠ encoded.bits) ∧
        (other.bits ≠ t.rspWord → u.rspWord ≠ encoded.bits ∧
          ∀ i, 1 ≤ i → i ≤ 64 → u.rspWord ≠ encoded.bits ^^^ oneBit 64 i)

/-- The spec's derived law R91 (with R80): two flipped bits always raise the flag, always give wrong data, and are answered with
the data of the codeword that a third flipped bit reaches. -/
def Obligations.TwoBitErrorsAreMiscorrected : Prop :=
  ∀ (r : BitVec 8) (data : Data 64) (a b : Nat) (s s' s'' : State), LegalR r → LegalData r data →
    1 ≤ a → a ≤ 2 ^ r.toNat - 1 → 1 ≤ b → b ≤ 2 ^ r.toNat - 1 → a ≠ b →
    ∃ t t' t'', exec (.encode r data) s = .next t ∧ t.rspFault = false ∧
      exec (.decode r ⟨t.rspWord ^^^ oneBit 64 a ^^^ oneBit 64 b⟩) s' = .next t' ∧ t'.rspFault = false ∧
      t'.rspHasError = true ∧ t'.rspWord ≠ data.bits ∧
      exec (.encode r ⟨t'.rspWord⟩) s'' = .next t'' ∧ t''.rspFault = false ∧
      t''.rspWord = t.rspWord ^^^ oneBit 64 a ^^^ oneBit 64 b ^^^ oneBit 64 (a ^^^ b)

/-- The spec's derived law R92: for any pattern of flipped bits the flag is 0 exactly when their indices XOR to 0, and then the
input is itself a codeword and is decoded as such. -/
def Obligations.FlagIsZeroIffIndicesCancel : Prop :=
  ∀ (r : BitVec 8) (data : Data 64) (flips : Word) (s s' s'' : State), LegalR r → LegalData r data →
    flips.toNat < 2 ^ (2 ^ r.toNat - 1) →
    ∃ t t' t'', exec (.encode r data) s = .next t ∧ t.rspFault = false ∧
      exec (.decode r ⟨t.rspWord ^^^ flips⟩) s' = .next t' ∧ t'.rspFault = false ∧
      (t'.rspHasError = false ↔ indexXor (2 ^ r.toNat - 1) flips = 0) ∧
      exec (.encode r ⟨t'.rspWord⟩) s'' = .next t'' ∧ t''.rspFault = false ∧
      (t'.rspHasError = false → t''.rspWord = t.rspWord ^^^ flips)

/-- The spec's derived law R89 (b): the syndrome is linear. -/
def Obligations.SyndromeIsLinear : Prop :=
  ∀ (w r : Nat) (x y : BitVec w), 2 ^ r - 1 ≤ w →
    ∃ a b, syndrome (2 ^ r - 1) x = some a ∧ syndrome (2 ^ r - 1) y = some b ∧
      syndrome (2 ^ r - 1) (x ^^^ y) = some (a ^^^ b) ∧
      ∀ i, 1 ≤ i → i ≤ 2 ^ r - 1 → syndrome (2 ^ r - 1) (x ^^^ oneBit w i) = some (a ^^^ i)

/-- The spec's derived law R95: ENCODE is linear, and does not depend on `r` beyond its being large enough for the data. -/
def Obligations.EncodeIsLinear : Prop :=
  (∀ (r : BitVec 8) (a b : Data 64) (s : State), LegalR r → LegalData r a → LegalData r b →
    ∃ ta tb t, exec (.encode r a) s = .next ta ∧ exec (.encode r b) s = .next tb ∧
      exec (.encode r ⟨a.bits ^^^ b.bits⟩) s = .next t ∧
      ta.rspFault = false ∧ tb.rspFault = false ∧ t.rspFault = false ∧ t.rspWord = ta.rspWord ^^^ tb.rspWord) ∧
  (∀ (r r' : BitVec 8) (data : Data 64) (s : State), LegalR r → LegalR r' → r.toNat ≤ r'.toNat → LegalData r data →
    ∃ t t', exec (.encode r data) s = .next t ∧ exec (.encode r' data) s = .next t' ∧
      t.rspFault = false ∧ t'.rspFault = false ∧ t'.rspWord = t.rspWord)

/-- The spec's derived law R96: the extractor reads the same data whatever stands at a parity position. -/
def Obligations.ParityPositionErrorsChangeNoData : Prop :=
  ∀ (w r j : Nat) (c : BitVec w), 2 ^ r - 1 ≤ w → j < r →
    ∃ out, extract (2 ^ r - 1) c = some out ∧ extract (2 ^ r - 1) (c ^^^ oneBit w (2 ^ j)) = some out

/-- The spec's derived law R98: a clean codeword, or one with a single flipped bit, decoded with any legal `r'` gives the right
data and flag or faults CODEWORD_RANGE, and with `r' ≥ r` it does not fault. -/
def Obligations.OtherRGivesRightDataOrFaults : Prop :=
  ∀ (r r' : BitVec 8) (data : Data 64) (s s' : State), LegalR r → LegalR r' → LegalData r data →
    ∃ t, exec (.encode r data) s = .next t ∧ t.rspFault = false ∧
      ∀ x : Word, (x = t.rspWord ∨ ∃ i, 1 ≤ i ∧ i ≤ 2 ^ r.toNat - 1 ∧ x = t.rspWord ^^^ oneBit 64 i) →
        ∃ t', exec (.decode r' ⟨x⟩) s' = .next t' ∧
          (r.toNat ≤ r'.toNat → t'.rspFault = false) ∧
          (2 ^ (2 ^ r'.toNat - 1) ≤ x.toNat → t'.rspFault = true ∧ t'.rspCause = 3) ∧
          (x.toNat < 2 ^ (2 ^ r'.toNat - 1) → t'.rspFault = false ∧ t'.rspWord = data.bits ∧
            t'.rspHasError = decide (x ≠ t.rspWord))

/-- R90: the two scenarios of the source. That the codeword is 0x52 and the corrupted word 0x42 is what R90 marks [derived];
the outcomes are the source's. -/
def Obligations.SourceScenarios : Prop :=
  ∀ s : State,
    (∃ t, exec (.encode 3 ⟨0b1010⟩) s = .next t ∧ t.rspFault = false ∧ t.rspWord = 0x52) ∧
    (∃ t, exec (.decode 3 ⟨0x52 ^^^ oneBit 64 5⟩) s = .next t ∧ t.rspFault = false ∧ t.rspWord = 0b1010 ∧
      t.rspHasError = true) ∧
    (0x52 ^^^ oneBit 64 5 = 0x42#64) ∧
    (∃ t, exec (.encode 3 ⟨0⟩) s = .next t ∧ t.rspFault = false ∧ t.rspWord = 0) ∧
    (∃ t, exec (.decode 3 ⟨0⟩) s = .next t ∧ t.rspFault = false ∧ t.rspWord = 0 ∧ t.rspHasError = false)

/-- The spec's derived tables for small `r` (R67, R79): `r = 0` and `r = 1`, and for `r = 2` every legal operand. -/
def Obligations.SmallRTables : Prop :=
  (∀ s : State, ∀ p ∈ [(0, 0, 0), (1, 0, 0), (2, 0, 0), (2, 1, 7)],
    ∃ t, exec (.encode (BitVec.ofNat 8 p.1) ⟨BitVec.ofNat 64 p.2.1⟩) s = .next t ∧ t.rspFault = false ∧
      t.rspWord = BitVec.ofNat 64 p.2.2) ∧
  (∀ s : State, ∀ p ∈ [(0, 0, 0, false), (1, 0, 0, false), (1, 1, 0, true), (2, 0, 0, false), (2, 1, 0, true), (2, 2, 0, true),
      (2, 3, 1, true), (2, 4, 0, true), (2, 5, 1, true), (2, 6, 1, true), (2, 7, 1, false)],
    ∃ t, exec (.decode (BitVec.ofNat 8 p.1) ⟨BitVec.ofNat 64 p.2.1⟩) s = .next t ∧ t.rspFault = false ∧
      t.rspWord = BitVec.ofNat 64 p.2.2.1 ∧ t.rspHasError = p.2.2.2) ∧
  (∀ (r : BitVec 8) (s : State), LegalR r → 2 ≤ r.toNat →
    ∃ t, exec (.encode r ⟨1⟩) s = .next t ∧ t.rspFault = false ∧ t.rspWord = 7)

/-! ### The whole machine -/

/-- First clause: a transaction (R31) executes the command with its own fields on the command port. That the host's move drives
the four command wires at once and leaves every other field, the response wires too, as it was until the step is the model's
choice (logs 2 and 6). Second clause, R7: the response, as far as it is defined, depends only on that command, whatever came
before. -/
def Obligations.ResponseDependsOnTheCommandOnly : Prop :=
  (∀ (i : Instr) (s : State), transact i s = exec i (present i s) ∧
    present i s = { s with cmdValid := true, cmdOp := opOf i, cmdR := rOf i, cmdWord := wordOf i }) ∧
  ∀ (i : Instr) (s s' : State), ∃ t t', transact i s = .next t ∧ transact i s' = .next t' ∧
    observed (response t) = observed (response t')

/-- R123 and R126, and the spec's derived law R97: a run over any list of commands ends, samples one response a command, and
answers each command, faulting ones among them, as the execution of that command alone does, its fields on the command
port. The form of the host's moves and of a run is the model's choice (logs 2, 6 and 11), and nothing is said of the command
port at the end (log 12). -/
def Obligations.RunsAnswerEachCommandAsIfAlone : Prop :=
  ∀ (is : List Instr) (s : State), ∃ s' rs, runSession is s = .next (s', rs) ∧
    List.Forall₂ (fun i rsp => ∀ u : State, ∃ t, transact i u = .next t ∧
      exec i { u with cmdValid := true, cmdOp := opOf i, cmdR := rOf i, cmdWord := wordOf i } = .next t ∧
      observed (response t) = observed rsp) is rs

/-- R31, R104, R60 and R70 as one invariant: after a step from any state whatever, the response wires agree with the command
wires. (It holds without a premise on the state before, so it is kept in particular from every settled one.) -/
def Obligations.EveryStepSettlesTheResponsePort : Prop :=
  ∀ s t : State, step s = .next t → Settled t

/-- The state before the first command is settled, for the command wires that log 3 chooses (R19 gives no value). -/
def Obligations.ResetIsSettled : Prop :=
  Settled State.reset
end

