-- ==== Sys2Proof/Laws/Bits.lean ====
section
/-! SUPPORT. One spec lemma per bit primitive, and the arithmetic of positions that every stage uses. -/

namespace Sys2Proof.Machine

variable {w : Nat}

theorem shiftRight_and_one_ne_zero (x : BitVec w) (k : Nat) (hk : k < w) :
    ((x >>> k) &&& 1#w != 0#w) = x.getLsbD k := by
  have h1 : (x >>> k) &&& 1#w = if x.getLsbD k then 1#w else 0#w := by
    ext j hj
    rcases Nat.eq_zero_or_pos j with rfl | hj'
    · by_cases hx : x.getLsbD k <;> simp_all
    · by_cases hx : x.getLsbD k <;> simp [hx, BitVec.getElem_one] <;> omega
  have h2 : (1#w : BitVec w) ≠ 0#w := by
    intro h
    have := congrArg (fun y : BitVec w => y.getLsbD 0) h
    simp at this
    omega
  rw [h1]
  by_cases hx : x.getLsbD k <;> simp [hx, h2]

theorem getBit_eq_some (x : BitVec w) {i : Nat} (h1 : 1 ≤ i) (h2 : i ≤ w) : getBit x i = some (bitAt x i) := by
  have := shiftRight_and_one_ne_zero x (i - 1) (by omega)
  simp only [getBit, h1, h2, and_self, if_true, bitAt, decide_true, Bool.true_and]
  rw [this]

theorem getBit_eq_none (x : BitVec w) {i : Nat} (h : ¬(1 ≤ i ∧ i ≤ w)) : getBit x i = none := by
  simp [getBit, h]

theorem setBit_eq_none (x : BitVec w) (b : Bool) {i : Nat} (h : ¬(1 ≤ i ∧ i ≤ w)) : setBit x i b = none := by
  simp [setBit, h]

/-- What `set_bit` does, whole: inside `1..w` it answers the word that has `b` at `i` and is unchanged elsewhere. -/
theorem setBit_spec (x : BitVec w) (b : Bool) {i : Nat} (h1 : 1 ≤ i) (h2 : i ≤ w) :
    ∃ y, setBit x i b = some y ∧ ∀ j, bitAt y j = if j = i then b else bitAt x j := by
  refine ⟨_, by simp only [setBit, h1, h2, and_self, if_true]; rfl, fun j => ?_⟩
  rcases Nat.eq_zero_or_pos j with rfl | hj
  · simp [bitAt]; omega
  · by_cases hjw : j - 1 < w
    · by_cases hji : j = i
      · subst hji
        cases b <;> simp [bitAt, hjw]
        omega
      · have : ¬(j - 1 - (i - 1) = 0 ∧ ¬ j - 1 < i - 1) := by omega
        cases b <;> simp [bitAt, hjw, hji] <;> grind
    · have hji : j ≠ i := by omega
      cases b <;> simp [bitAt, hji] <;> grind

theorem bitAt_zero_index (x : BitVec w) : bitAt x 0 = false := by simp [bitAt]

@[simp] theorem bitAt_zero (i : Nat) : bitAt (0#w) i = false := by simp [bitAt]

@[simp] theorem bitAt_xor (x y : BitVec w) (i : Nat) : bitAt (x ^^^ y) i = (bitAt x i ^^ bitAt y i) := by
  by_cases h : 1 ≤ i <;> simp [bitAt, h]

theorem bitAt_of_gt (x : BitVec w) {i : Nat} (h : w < i) : bitAt x i = false := by
  simp only [bitAt, Bool.and_eq_false_iff]
  exact Or.inr (BitVec.getLsbD_of_ge x _ (by omega))

/-- Words with the same bits at every index of `1..w` are equal. -/
theorem ext_bitAt {x y : BitVec w} (h : ∀ i, 1 ≤ i → i ≤ w → bitAt x i = bitAt y i) : x = y := by
  refine BitVec.eq_of_getLsbD_eq fun k hk => ?_
  simpa [bitAt] using h (k + 1) (by omega) (by omega)

theorem mem_positions {n i : Nat} : i ∈ positions n ↔ 1 ≤ i ∧ i ≤ n := by
  simp only [positions, List.mem_range'_1]
  omega

theorem positions_succ (n : Nat) : positions (n + 1) = positions n ++ [n + 1] := by
  rw [positions, positions, List.range'_concat, Nat.add_comm 1]
  simp

@[simp] theorem positions_zero : positions 0 = [] := rfl

/-- The induction of every walk `1..n`: if each position in range answers and takes `Inv m` to `Inv (m + 1)`, the walk
answers and ends in `Inv n`. -/
theorem foldlM_positions {α : Type} {f : α → Nat → Option α} {a : α} (Inv : Nat → α → Prop) (h0 : Inv 0 a) (n : Nat)
    (hstep : ∀ m b, m < n → Inv m b → ∃ c, f b (m + 1) = some c ∧ Inv (m + 1) c) :
    ∃ b, (positions n).foldlM f a = some b ∧ Inv n b := by
  induction n with
  | zero => exact ⟨a, rfl, h0⟩
  | succ n ih =>
    obtain ⟨b, hb, hi⟩ := ih fun m b hm => hstep m b (by omega)
    obtain ⟨c, hc, hi'⟩ := hstep n b (by omega) hi
    exact ⟨c, by simp [positions_succ, List.foldlM_append, hb, hc], hi'⟩

/-- `compute_parity` answers whenever its walk stays inside the Word. -/
theorem computeParity_isSome (x : BitVec w) (p : Nat) {n : Nat} (h : n ≤ w) : ∃ b, computeParity x p n = some b := by
  obtain ⟨b, hb, -⟩ := foldlM_positions (f := parityStep x p) (a := false) (fun _ _ => True) trivial n fun m b hm _ => by
    simp only [parityStep]
    split
    · exact ⟨_, by simp [getBit_eq_some x (i := m + 1) (by omega) (by omega)]; rfl, trivial⟩
    · exact ⟨b, rfl, trivial⟩
  exact ⟨b, hb⟩

end Sys2Proof.Machine
end

