-- ==== Sys2Proof/Laws/State.lean ====
section
/-! SUPPORT. One lemma per field of State per update, and the three updates' composition. -/

namespace Sys2Proof.Machine

section Drive
variable (word : Word) (hasError : Bool) (cause : Option Cause) (s : State)

@[simp] theorem drive_cmdValid : (drive word hasError cause s).cmdValid = s.cmdValid := rfl
@[simp] theorem drive_cmdOp : (drive word hasError cause s).cmdOp = s.cmdOp := rfl
@[simp] theorem drive_cmdR : (drive word hasError cause s).cmdR = s.cmdR := rfl
@[simp] theorem drive_cmdWord : (drive word hasError cause s).cmdWord = s.cmdWord := rfl
@[simp] theorem drive_rspValid : (drive word hasError cause s).rspValid = s.cmdValid := rfl
@[simp] theorem drive_rspWord : (drive word hasError cause s).rspWord = word := rfl
@[simp] theorem drive_rspHasError : (drive word hasError cause s).rspHasError = hasError := rfl
@[simp] theorem drive_rspFault : (drive word hasError cause s).rspFault = faultWire (causeWire cause) := rfl
@[simp] theorem drive_rspCause : (drive word hasError cause s).rspCause = causeWire cause := rfl
@[simp] theorem drive_draws : (drive word hasError cause s).draws = s.draws := rfl

end Drive

section RaiseFault
variable (cause : Cause) (i : Instr) (s : State)

@[simp] theorem raiseFault_cmdValid : (raiseFault cause i s).cmdValid = s.cmdValid := rfl
@[simp] theorem raiseFault_cmdOp : (raiseFault cause i s).cmdOp = s.cmdOp := rfl
@[simp] theorem raiseFault_cmdR : (raiseFault cause i s).cmdR = s.cmdR := rfl
@[simp] theorem raiseFault_cmdWord : (raiseFault cause i s).cmdWord = s.cmdWord := rfl
@[simp] theorem raiseFault_rspValid : (raiseFault cause i s).rspValid = s.cmdValid := rfl
@[simp] theorem raiseFault_rspWord : (raiseFault cause i s).rspWord = Config.freeWord (commandWord i) s.draws := rfl
@[simp] theorem raiseFault_rspHasError : (raiseFault cause i s).rspHasError = Config.freeHasError (commandWord i) s.draws :=
  rfl
@[simp] theorem raiseFault_rspFault : (raiseFault cause i s).rspFault = true := by cases cause <;> rfl
@[simp] theorem raiseFault_rspCause : (raiseFault cause i s).rspCause = causeCode cause := rfl
@[simp] theorem raiseFault_draws : (raiseFault cause i s).draws = s.draws + 1 := rfl

end RaiseFault

section PlaceCommand
variable (cmd : BitVec Config.CW) (s : State)

@[simp] theorem placeCommand_cmdValid : (placeCommand cmd s).cmdValid = true := rfl
@[simp] theorem placeCommand_cmdOp : (placeCommand cmd s).cmdOp = opField cmd := rfl
@[simp] theorem placeCommand_cmdR : (placeCommand cmd s).cmdR = rField cmd := rfl
@[simp] theorem placeCommand_cmdWord : (placeCommand cmd s).cmdWord = wordField cmd := rfl
@[simp] theorem placeCommand_rspValid : (placeCommand cmd s).rspValid = s.rspValid := rfl
@[simp] theorem placeCommand_rspWord : (placeCommand cmd s).rspWord = s.rspWord := rfl
@[simp] theorem placeCommand_rspHasError : (placeCommand cmd s).rspHasError = s.rspHasError := rfl
@[simp] theorem placeCommand_rspFault : (placeCommand cmd s).rspFault = s.rspFault := rfl
@[simp] theorem placeCommand_rspCause : (placeCommand cmd s).rspCause = s.rspCause := rfl
@[simp] theorem placeCommand_draws : (placeCommand cmd s).draws = s.draws := rfl

end PlaceCommand

end Sys2Proof.Machine
end

