-- ==== Sys2Proof/Laws/Exec.lean ====
section
/-! SUPPORT. What a command can do, said once: it reports its fault, or its datapath answers and the response port is driven. -/

namespace Sys2Proof.Machine

theorem execEncode_of_fault {r : BitVec Config.RW} {data : Data Config.W} {cause : Cause}
    (h : encodeFault r.toNat data = some cause) (s : State) :
    execEncode r data s = .next (raiseFault cause (.encode r data) s) := by
  simp [execEncode, h]

theorem execDecode_of_fault {r : BitVec Config.RW} {encoded : Encoded Config.W} {cause : Cause}
    (h : decodeFault r.toNat encoded = some cause) (s : State) :
    execDecode r encoded s = .next (raiseFault cause (.decode r encoded) s) := by
  simp [execDecode, h]

theorem execEncode_of_legal {r : BitVec Config.RW} {data : Data Config.W} {c : Encoded Config.W}
    (h : encodeFault r.toNat data = none) (hc : encodeWord r.toNat data = some c) (s : State) :
    execEncode r data s = .next (drive c.bits false none s) := by
  simp [execEncode, h, hc]

theorem execDecode_of_legal {r : BitVec Config.RW} {encoded : Encoded Config.W} {out : Decoded Config.W} {hasError : Bool}
    (h : decodeFault r.toNat encoded = none) (ho : decodeWord r.toNat encoded = some (out, hasError)) (s : State) :
    execDecode r encoded s = .next (drive out.bits hasError none s) := by
  simp [execDecode, h, ho]

/-- If ENCODE answers a next state, it reported its fault or drove its codeword. -/
theorem execEncode_cases {r : BitVec Config.RW} {data : Data Config.W} {s t : State} (h : execEncode r data s = .next t) :
    (∃ cause, encodeFault r.toNat data = some cause ∧ t = raiseFault cause (.encode r data) s) ∨
    (encodeFault r.toNat data = none ∧ ∃ c, encodeWord r.toNat data = some c ∧ t = drive c.bits false none s) := by
  simp only [execEncode] at h
  split at h
  · exact .inl ⟨_, ‹_›, by simpa using h.symm⟩
  · split at h
    · exact .inr ⟨‹_›, _, ‹_›, by simpa using h.symm⟩
    · cases h

/-- If DECODE answers a next state, it reported its fault or drove its data and its flag. -/
theorem execDecode_cases {r : BitVec Config.RW} {encoded : Encoded Config.W} {s t : State}
    (h : execDecode r encoded s = .next t) :
    (∃ cause, decodeFault r.toNat encoded = some cause ∧ t = raiseFault cause (.decode r encoded) s) ∨
    (decodeFault r.toNat encoded = none ∧
      ∃ out hasError, decodeWord r.toNat encoded = some (out, hasError) ∧ t = drive out.bits hasError none s) := by
  simp only [execDecode] at h
  split at h
  · exact .inl ⟨_, ‹_›, by simpa using h.symm⟩
  · split at h
    · exact .inr ⟨‹_›, _, _, ‹_›, by simpa using h.symm⟩
    · cases h

/-- ENCODE's precondition stage, case by case (R61). -/
theorem encodeFault_eq {w : Nat} (r : Nat) (data : Data w) : encodeFault r data =
    if 2 ^ r - 1 > w then some .rRange else if data.bits.toNat ≥ 2 ^ (2 ^ r - 1 - r) then some .dataRange else none := by
  simp [encodeFault, rOutOfRange, nDataBits, nEncodedBits]

/-- DECODE's precondition stage, case by case (R71). -/
theorem decodeFault_eq {w : Nat} (r : Nat) (encoded : Encoded w) : decodeFault r encoded =
    if 2 ^ r - 1 > w then some .rRange else if encoded.bits.toNat ≥ 2 ^ (2 ^ r - 1) then some .codewordRange else none := by
  simp [decodeFault, rOutOfRange, nEncodedBits]

end Sys2Proof.Machine
end

