-- ==== Sys2Proof/Laws/PerInstr.lean ====
section
/-! SUPPORT. Facts about every command as syntax, one lemma per constructor of Instr. -/

namespace Sys2Proof.Laws

/-- The largest legal `r` at the machine's width (R4). -/
theorem rMax_W : Config.rMax Config.W = 6 := by
  rw [Config.rMax, Nat.log2_eq_iff (by decide)]
  decide

namespace LegalFields

/-- A command is well formed exactly when its fields, read as R32 names them, meet R39: `r ≤ 6` and `word` below `2^k` when
`op = 0`, below `2^n` when `op = 1`. -/
def Statement (i : Instr) : Prop :=
  i.wellFormed = true ↔ (rOf i).toNat ≤ 6 ∧
    (wordOf i).toNat < 2 ^ (if opOf i = 0#1 then 2 ^ (rOf i).toNat - 1 - (rOf i).toNat else 2 ^ (rOf i).toNat - 1)

theorem encode (r : BitVec Config.RW) (data : Data Config.W) : Statement (.encode r data) := by
  simp [Statement, Instr.wellFormed, rLegal, dataLegal, rMax_W, opOf, rOf, wordOf]

theorem decode (r : BitVec Config.RW) (encoded : Encoded Config.W) : Statement (.decode r encoded) := by
  simp [Statement, Instr.wellFormed, rLegal, encodedLegal, rMax_W, opOf, rOf, wordOf]

end LegalFields

end Sys2Proof.Laws
end

