-- ==== Sys2Proof/Tests/Slice0.lean ====
section
/-! SUPPORT. Small tests, each expected value from spec/ (its source in the comment), and for each statement with hypotheses a
witness that meets them. -/

open Sys2Proof Sys2Proof.Machine

namespace Sys2Proof.Tests

/-! ### WellFormed refuses what R39 lists, and accepts its boundary-legal neighbours -/

/-- V150: the smallest illegal `r`. -/
theorem test_illformed_r : (Instr.encode 7 ⟨0⟩).wellFormed = false := by decide
/-- V157: the smallest illegal data for `r = 3`. -/
theorem test_illformed_data : (Instr.encode 3 ⟨0x10⟩).wellFormed = false := by decide
/-- V165: the smallest illegal DECODE operand for `r = 3`. -/
theorem test_illformed_encoded : (Instr.decode 3 ⟨0x80⟩).wellFormed = false := by decide
/-- V61, V117: the largest legal operands for `r = 3`. -/
theorem test_wellformed_boundary : (Instr.encode 3 ⟨0xF⟩).wellFormed = true ∧ (Instr.decode 3 ⟨0x7F⟩).wellFormed = true := by
  decide

/-! ### Decoding, the words written out bit by bit from R32: `op`, `r`, `word` -/

/-- ENCODE with `r = 0b00000011` and `word = 0b1010` (V1). -/
theorem test_decode_word_encode :
    decodeCommand 0b0000000110000000000000000000000000000000000000000000000000000000000001010 = .encode 3 ⟨10⟩ := by decide
/-- DECODE with `r = 0b00000011` and `word = 0b1000010` (V2). -/
theorem test_decode_word_decode :
    decodeCommand 0b1000000110000000000000000000000000000000000000000000000000000000001000010 = .decode 3 ⟨0x42⟩ := by decide
/-- DECODE with `r = 0b11111111` and `word = 0` (V153): no bit of `r` reaches `op` or `word`. -/
theorem test_decode_word_largest_r :
    decodeCommand 0b1111111110000000000000000000000000000000000000000000000000000000000000000 = .decode 255 ⟨0⟩ := by decide
/-- ENCODE with `r = 7` and all ones (V155): no bit of `word` reaches `r`. -/
theorem test_decode_word_all_ones :
    decodeCommand 0b0000001111111111111111111111111111111111111111111111111111111111111111111 =
      .encode 7 ⟨0xFFFFFFFFFFFFFFFF⟩ := by decide
/-- A 74th bit is no part of a command word (R32). -/
theorem test_decode_too_wide : decodeNumber (2 ^ 73) = .error .widerThanCommandWord := by decide

/-! ### One step of each command -/

/-- V75: ENCODE at the largest `r`. -/
theorem test_encode_v75 :
    (nextState (exec (.encode 6 ⟨0x123456789ABCDE⟩) State.reset)).map (fun t => (t.rspWord, t.rspFault)) =
      some (0x48D159E9357CDF3, false) := by decide +kernel
/-- V155: R_RANGE has priority over the operand check. -/
theorem test_encode_v155 :
    (nextState (step (State.reset.withFetchWord 80 0x007FFFFFFFFFFFFFFFF))).map (fun t => (t.rspFault, t.rspCause)) =
      some (true, 1) := by decide
/-- V129: DECODE at the largest `r`, bit 63 flipped. -/
theorem test_decode_v129 :
    (nextState (step (State.reset.withFetchWord 80 0x106448D159E9357CDF3))).map (fun t => (t.rspWord, t.rspHasError)) =
      some (0x123456789ABCDE, true) := by decide +kernel
/-- V140: two flipped bits are silently miscorrected. -/
theorem test_decode_v140 :
    (nextState (exec (.decode 3 ⟨0x46⟩) State.reset)).map (fun t => (t.rspWord, t.rspHasError, t.rspFault)) =
      some (0xD, true, false) := by decide

/-- V157 and then V1 as a run: a fault leaves no trace on the next transaction. -/
theorem test_fault_leaves_no_trace :
    (match runSession [.encode 3 ⟨0x10⟩, .encode 3 ⟨0xA⟩] State.reset with
      | .next (_, [a, b]) => a.cause == 2 && decide (b = ⟨false, 0, false, 0x52⟩)
      | _ => false) = true := by
  decide

/-- V1's response word: `RSP = 0x0_0000000000000052`, and V2's `0x1_000000000000000A` (R33). -/
theorem test_response_words :
    responseWord ⟨false, 0, false, 0x52⟩ = 0x00000000000000052 ∧ responseWord ⟨false, 0, true, 0xA⟩ = 0x1000000000000000A := by
  decide

/-! ### Primitives (95_test_vectors.md, section 2) -/

/-- V206, V207, V213, V214: the ends of a Word, and U4. -/
theorem test_bit_ends :
    getBit 0x8000000000000000#64 64 = some true ∧ getBit 0x8000000000000000#64 63 = some false ∧
    setBit 0#64 64 true = some 0x8000000000000000#64 ∧ setBit 0xFFFFFFFFFFFFFFFF#64 1 false = some 0xFFFFFFFFFFFFFFFE#64 ∧
    getBit 1#64 0 = none ∧ getBit 1#64 65 = none ∧ setBit 1#64 0 true = none ∧ setBit 1#64 65 true = none := by decide
/-- V215. -/
theorem test_n_encoded_bits : (List.range 17).map nEncodedBits =
    [0, 1, 3, 7, 15, 31, 63, 127, 255, 511, 1023, 2047, 4095, 8191, 16383, 32767, 65535] := by decide
/-- V216, V217 (R53). -/
theorem test_parity_positions : [1, 2, 4, 8, 16, 32, 64].all isParityPosition = true ∧
    [0, 3, 5, 6, 7, 9, 10, 12, 15, 17, 31, 33, 48, 63].any isParityPosition = false := by decide
/-- V221, V223, V226, V230, V232: the coverage `(i AND p) ≠ 0`, parity positions excluded, the empty set 0. -/
theorem test_compute_parity :
    computeParity 0x42#64 1 7 = some true ∧ computeParity 0x42#64 4 7 = some true ∧ computeParity 0xB#64 4 7 = some false ∧
    computeParity 0#64 1 1 = some false ∧ computeParity 0x4000#64 8 15 = some true := by decide

/-! ### Witnesses of the statements' hypotheses, at the boundary values of each clause -/

theorem isDataPos_of_range {pos : Nat} (h1 : 1 ≤ pos) (h : ∀ j, j < pos → pos ≠ 2 ^ j) : IsDataPos pos :=
  ⟨h1, fun j hj => h j (by rw [hj]; exact Nat.lt_two_pow_self) hj⟩

/-- OperationSelect: a command word of each operation. -/
theorem witness_operation_select :
    (0x003000000000000000A : BitVec 73).getLsbD 72 = false ∧ (0x1030000000000000042 : BitVec 73).getLsbD 72 = true := by decide
/-- DecodeOfEncodeIsTheCommand: the smallest width that holds a command word. -/
theorem witness_nbits : 73 ≤ 73 ∧ 73 ≤ 80 := by decide
/-- NumbersThatDecode: the last number that decodes and the first that does not. -/
theorem witness_numbers : 2 ^ 73 - 1 < 2 ^ 73 ∧ 2 ^ 73 ≤ 2 ^ 73 := by decide
/-- StepRunsTheCommandOnThePort: a state for each operation, and a command that a port holds. -/
theorem witness_step_runs :
    State.reset.cmdOp = 0 ∧ (State.reset.withFetchWord 80 (2 ^ 72)).cmdOp = 1 ∧
    decodeCommand (commandWires State.reset) = .encode 0 ⟨0⟩ := by decide
/-- FetchWordIsRunNext: a table word of each row. -/
theorem witness_fetch_word :
    decodeTableWord 80 0x003000000000000000A = some (.encode 3 ⟨0xA⟩) ∧ decodeTableWord 73 (2 ^ 72) = some (.decode 0 ⟨0⟩) := by
  decide
/-- GetBitRule, SetBitRule: the ends of the range, inside and outside. -/
theorem witness_bit_index :
    (1 ≤ 1 ∧ 1 ≤ 64) ∧ (1 ≤ 64 ∧ 64 ≤ 64) ∧ ¬(1 ≤ 0 ∧ 0 ≤ 64) ∧ ¬(1 ≤ 65 ∧ 65 ≤ 64) ∧
    getBit 0x52#64 5 = some true ∧ getBit 0x52#64 1 = some (!true) := by decide
/-- ComputeParityIsAnXorTree: `p = n` of `r = 1`, and the largest of `W = 64`. -/
theorem witness_xor_tree : (2 ^ 0 ≤ 1 ∧ 1 ≤ 64) ∧ (2 ^ 5 ≤ 63 ∧ 63 ≤ 64) := by decide
/-- ParityReadsDataPositionsOnly: two words that differ at parity positions 1, 2, 4 only (V218, V224's word added). -/
theorem witness_parity_reads : 7 ≤ 64 ∧ ∀ i, IsDataPos i → i ≤ 7 → bitAt 0x50#64 i = bitAt 0x5B#64 i := by
  refine ⟨by decide, fun i hi h7 => ?_⟩
  have h1 := hi.2 0
  have h2 := hi.2 1
  have h4 := hi.2 2
  have := hi.1
  interval_cases i <;> first | decide | simp_all
/-- DataPositionsInOrder: the first data position, and the data bit indices 1 and 57 of `r = 6`. -/
theorem witness_data_positions : IsDataPos 3 ∧ IsDataPos 63 ∧ 1 ≤ 57 ∧ 57 ≤ 2 ^ 6 - 1 - 6 :=
  ⟨isDataPos_of_range (by decide) (by decide), isDataPos_of_range (by decide) (by decide), by decide, by decide⟩
/-- The stages: codewords that fit, `n = 0` and `n = 63` in 64 bits, with a data position, a parity position and an index
above `n`, the data bit indices 1 and `k`, and a data bit index above `k`. -/
theorem witness_stages :
    2 ^ 0 - 1 ≤ 64 ∧ 2 ^ 6 - 1 ≤ 64 ∧ (IsDataPos 63 ∧ 63 ≤ 2 ^ 6 - 1) ∧ 5 < 6 ∧ 2 ^ 6 - 1 < 64 ∧
    (1 ≤ 57 ∧ 57 ≤ 2 ^ 6 - 1 - 6) ∧ 2 ^ 6 - 1 - 6 < 58 :=
  ⟨by decide, by decide, ⟨isDataPos_of_range (by decide) (by decide), by decide⟩, by decide, by decide, by decide, by decide⟩
/-- InterleaverPlacesTheData, ExtractorReadsTheDataPositions: the largest data and the largest word of `r = 3`, at `r' = 6`. -/
theorem witness_larger_r :
    3 ≤ 6 ∧ 2 ^ 6 - 1 ≤ 64 ∧ (0xF#64).toNat < 2 ^ (2 ^ 3 - 1 - 3) ∧ (0x7F#64).toNat < 2 ^ (2 ^ 3 - 1) := by decide
/-- ParityInsertionMakesChecksEven: a data position and an index above `n` are no parity position of `r = 3`. -/
theorem witness_insertion : (∀ j, j < 3 → 7 ≠ 2 ^ j) ∧ (∀ j, j < 3 → 8 ≠ 2 ^ j) := by decide
/-- SyndromeIsTheXorOfIndices: the last bit that a check sets, and the first that none does. -/
theorem witness_syndrome_bits : 2 ^ 6 - 1 ≤ 64 ∧ 5 < 6 ∧ 6 ≤ 6 := by decide
/-- CorrectionFlipsTheLocatedBit: a word with a non-zero syndrome and one with syndrome 0 (V105, V100). -/
theorem witness_correction :
    2 ^ 3 - 1 ≤ 64 ∧ syndrome (2 ^ 3 - 1) 0x42#64 = some 5 ∧ syndrome (2 ^ 3 - 1) 0x52#64 = some 0 := by decide
/-- EncodeAnswersTheCodeword and the laws: the least and the greatest legal operands of ENCODE. -/
theorem witness_legal_data :
    (LegalR 0 ∧ LegalData 0 ⟨0⟩) ∧ (LegalR 6 ∧ LegalData 6 ⟨0x1FFFFFFFFFFFFFF⟩) := by
  simp only [LegalR, LegalData]; decide
/-- DecodeAnswersTheData and EncodeAfterDecodeIsTheNearestCodeword: the least and the greatest legal operands of DECODE. -/
theorem witness_legal_encoded :
    (LegalR 0 ∧ LegalEncoded 0 ⟨0⟩) ∧ (LegalR 6 ∧ LegalEncoded 6 ⟨0x7FFFFFFFFFFFFFFF⟩) := by
  simp only [LegalR, LegalEncoded]; decide
/-- CommandsChangeTheResponsePortOnly, EveryStepSettlesTheResponsePort: a command, legal and faulting, and a step that
answer. -/
theorem witness_next :
    (∃ t, exec (.encode 0 ⟨0⟩) State.reset = .next t) ∧ (∃ t, exec (.decode 7 ⟨0⟩) State.reset = .next t) ∧
    ∃ t, step State.reset = .next t := ⟨⟨_, rfl⟩, ⟨_, rfl⟩, ⟨_, rfl⟩⟩
/-- RRangeFault, DataRangeFault, CodewordRangeFault, RRangeMasksTheOperandFaults: each cause occurs, and so does none. -/
theorem witness_causes :
    (nextState (exec (.encode 7 ⟨0⟩) State.reset)).map State.rspCause = some 1 ∧
    (nextState (exec (.decode 7 ⟨0x80⟩) State.reset)).map State.rspCause = some 1 ∧
    (nextState (exec (.encode 2 ⟨2⟩) State.reset)).map State.rspCause = some 2 ∧
    (nextState (exec (.decode 2 ⟨8⟩) State.reset)).map State.rspCause = some 3 ∧
    (nextState (exec (.encode 2 ⟨1⟩) State.reset)).map State.rspCause = some 0 ∧
    (nextState (exec (.decode 2 ⟨7⟩) State.reset)).map State.rspCause = some 0 := by decide
/-- The two sides of R106's range, and CodewordRangeFault's last clause. -/
theorem witness_r_bounds : 6 < (7 : BitVec 8).toNat ∧ (6 : BitVec 8).toNat ≤ 6 ∧ (7 : Word).toNat < 2 ^ (2 ^ 2 - 1) := by decide
/-- SingleBitErrorsAreCorrected, CodecCorrectsAtEveryWidth: the first and the last bit of the largest codeword. -/
theorem witness_single_error :
    LegalR 6 ∧ LegalData 6 ⟨0x1FFFFFFFFFFFFFF⟩ ∧ (1 ≤ 1 ∧ 1 ≤ 2 ^ (6 : BitVec 8).toNat - 1) ∧
    (1 ≤ 63 ∧ 63 ≤ 2 ^ (6 : BitVec 8).toNat - 1) := by
  simp only [LegalR, LegalData]; decide
/-- CodecCorrectsAtEveryWidth: the narrowest Word that holds the codeword of `r = 3`. -/
theorem witness_width : 2 ^ 3 - 1 ≤ 7 ∧ (0xF#7).toNat < 2 ^ (2 ^ 3 - 1 - 3) := by decide
/-- EncodeAfterDecodeIsTheNearestCodeword: both values of the flag occur (V100, V105). -/
theorem witness_flag :
    (nextState (exec (.decode 3 ⟨0x52⟩) State.reset)).map State.rspHasError = some false ∧
    (nextState (exec (.decode 3 ⟨0x42⟩) State.reset)).map State.rspHasError = some true := by decide
/-- EncodeAfterDecodeIsTheNearestCodeword, its last clause: V105's operand and flag, with other legal data than the 0xA it
decodes to, and the ends of the Word. -/
theorem witness_other_codeword :
    LegalR 3 ∧ LegalEncoded 3 ⟨0x42⟩ ∧ LegalData 3 ⟨0xB⟩ ∧ (1 ≤ 1 ∧ 64 ≤ 64) ∧
    (nextState (exec (.decode 3 ⟨0x42⟩) State.reset)).map (fun t => (t.rspHasError, decide ((0xB : Word) ≠ t.rspWord))) =
      some (true, true) := by
  simp only [LegalR, LegalData, LegalEncoded]; decide
/-- TwoBitErrorsAreMiscorrected: `r = 2`, the smallest code with two positions, and V140's positions. -/
theorem witness_two_errors :
    (LegalR 2 ∧ LegalData 2 ⟨1⟩ ∧ 1 ≤ 1 ∧ 3 ≤ 2 ^ (2 : BitVec 8).toNat - 1 ∧ 1 ≠ 3) ∧
    (LegalR 3 ∧ LegalData 3 ⟨0xA⟩ ∧ 1 ≤ 3 ∧ 5 ≤ 2 ^ (3 : BitVec 8).toNat - 1 ∧ 3 ≠ 5) := by
  simp only [LegalR, LegalData]; decide
/-- FlagIsZeroIffIndicesCancel: V143's flips cancel, V142's do not. -/
theorem witness_flips :
    (LegalR 3 ∧ LegalData 3 ⟨0xA⟩ ∧ (0b111 : Word).toNat < 2 ^ (2 ^ (3 : BitVec 8).toNat - 1) ∧
      indexXor (2 ^ (3 : BitVec 8).toNat - 1) (0b111 : Word) = 0) ∧
    (0b1000001 : Word).toNat < 2 ^ (2 ^ (3 : BitVec 8).toNat - 1) ∧
      indexXor (2 ^ (3 : BitVec 8).toNat - 1) (0b1000001 : Word) = 6 := by
  simp only [LegalR, LegalData]; decide
/-- EncodeIsLinear: two legal data, and a larger `r`. -/
theorem witness_linear :
    (LegalR 3 ∧ LegalData 3 ⟨0xA⟩ ∧ LegalData 3 ⟨0x5⟩) ∧ (LegalR 6 ∧ (3 : BitVec 8).toNat ≤ (6 : BitVec 8).toNat) := by
  simp only [LegalR, LegalData]; decide
/-- ParityPositionErrorsChangeNoData: the last parity position of the largest code. -/
theorem witness_parity_error : 2 ^ 6 - 1 ≤ 64 ∧ 5 < 6 := by decide
/-- OtherRGivesRightDataOrFaults: P5's words, one that faults at the smaller `r'` and one that does not (V112). -/
theorem witness_other_r :
    LegalR 4 ∧ LegalR 3 ∧ LegalData 4 ⟨0x555⟩ ∧ LegalData 4 ⟨1⟩ ∧
    2 ^ (2 ^ (3 : BitVec 8).toNat - 1) ≤ (0x552D : Word).toNat ∧ (7 : Word).toNat < 2 ^ (2 ^ (3 : BitVec 8).toNat - 1) ∧
    (nextState (exec (.encode 4 ⟨0x555⟩) State.reset)).map State.rspWord = some 0x552D := by
  simp only [LegalR, LegalData]; decide +kernel
/-- SmallRTables: the least and the greatest `r` of its last clause. -/
theorem witness_small_r : (LegalR 2 ∧ 2 ≤ (2 : BitVec 8).toNat) ∧ (LegalR 6 ∧ 2 ≤ (6 : BitVec 8).toNat) := by
  simp only [LegalR]; decide

end Sys2Proof.Tests
end

/-! ## The positions of a codeword

The parity positions are the powers of two, and `bitlen` counts them, so that the walks of the interleaver and of the extractor
meet data bit `pos − bitlen(pos)` at the data position `pos` (30_encoding.md, R35, R36). -/

namespace Sys2Proof.Machine

theorem isParityPosition_iff {i : Nat} : isParityPosition i = true ↔ ∃ j, i = 2 ^ j := by
  rw [isParityPosition, decide_eq_true_iff, Nat.ne_zero_and_sub_one_eq_zero_iff_isPowerOfTwo, Nat.isPowerOfTwo]

@[simp] theorem isParityPosition_zero : isParityPosition 0 = false := rfl

@[simp] theorem isParityPosition_two_pow (j : Nat) : isParityPosition (2 ^ j) = true := isParityPosition_iff.mpr ⟨j, rfl⟩

/-- Between neighbours, `bitlen` grows exactly at the parity positions. -/
theorem bitLen_succ (m : Nat) : bitLen (m + 1) = bitLen m + (isParityPosition (m + 1)).toNat := by
  rcases Nat.eq_zero_or_pos m with rfl | hm
  · decide
  obtain ⟨hlo, hhi⟩ := (Nat.log2_eq_iff hm.ne').mp rfl
  suffices (m + 1).log2 = m.log2 + (isParityPosition (m + 1)).toNat by simp [bitLen, hm.ne']; omega
  rw [Nat.log2_eq_iff (by omega)]
  cases hp : isParityPosition (m + 1) with
  | true =>
    obtain ⟨j, hj⟩ := isParityPosition_iff.mp hp
    have hlt : m.log2 < j := (Nat.pow_lt_pow_iff_right (by decide : 1 < 2)).mp (by omega)
    have hle : 2 ^ (m.log2 + 1) ≤ 2 ^ j := Nat.pow_le_pow_right (by decide) hlt
    simp only [Bool.toNat_true, Nat.pow_succ] at *
    omega
  | false =>
    have hne : m + 1 ≠ 2 ^ (m.log2 + 1) := fun h => by simp [h] at hp
    simp only [Bool.toNat_false, Nat.add_zero]
    omega

theorem bitLen_succ_of_parity {m : Nat} (h : isParityPosition (m + 1) = true) : bitLen (m + 1) = bitLen m + 1 := by
  simp [bitLen_succ, h]

theorem bitLen_succ_of_data {m : Nat} (h : isParityPosition (m + 1) = false) : bitLen (m + 1) = bitLen m := by
  simp [bitLen_succ, h]

@[simp] theorem bitLen_zero : bitLen 0 = 0 := rfl

theorem bitLen_le (m : Nat) : bitLen m ≤ m := by
  induction m with
  | zero => exact Nat.le_refl 0
  | succ m ih =>
    have := bitLen_succ m
    have := Bool.toNat_le (isParityPosition (m + 1))
    omega

/-- There are `r` parity positions in `1..2^r − 1`. -/
theorem bitLen_nEncodedBits (r : Nat) : bitLen (nEncodedBits r) = r := by
  cases r with
  | zero => rfl
  | succ r =>
    have hpos : 2 ^ r > 0 := Nat.two_pow_pos r
    have hlog : (2 ^ (r + 1) - 1).log2 = r := (Nat.log2_eq_iff (by omega)).mpr (by omega)
    rw [bitLen, nEncodedBits, if_neg (by omega), hlog]

/-- A later position is at no smaller a data bit index. -/
theorem dataIndex_mono {a b : Nat} (h : a ≤ b) : a - bitLen a ≤ b - bitLen b := by
  induction b, h using Nat.le_induction with
  | base => exact Nat.le_refl _
  | succ b _ ih =>
    have := bitLen_succ b
    have := bitLen_le b
    have := Bool.toNat_le (isParityPosition (b + 1))
    omega

/-- Each data bit index of `1..n − bitlen(n)` has its position in `1..n` (0 stands for itself). -/
theorem exists_position_of_dataIndex {n d : Nat} (h : d ≤ n - bitLen n) :
    ∃ pos, pos ≤ n ∧ isParityPosition pos = false ∧ pos - bitLen pos = d := by
  induction n with
  | zero => exact ⟨0, Nat.le_refl 0, rfl, by omega⟩
  | succ n ih =>
    by_cases hd : d ≤ n - bitLen n
    · obtain ⟨pos, hpos, hdata, heq⟩ := ih hd
      exact ⟨pos, by omega, hdata, heq⟩
    · cases hp : isParityPosition (n + 1) with
      | true =>
        have := bitLen_succ_of_parity hp
        omega
      | false =>
        have := bitLen_succ_of_data hp
        exact ⟨n + 1, Nat.le_refl _, hp, by omega⟩

end Sys2Proof.Machine

/-! ## XOR over the positions `1..n`

`xorOver` and `indexXor` as sums: their recursion on `n`, linearity, and the bits of `indexXor` (R72, R89). -/

namespace Sys2Proof.Machine

variable {w : Nat}

@[simp] theorem xorOver_zero (f : Nat → Bool) : xorOver 0 f = false := rfl

theorem xorOver_succ (n : Nat) (f : Nat → Bool) : xorOver (n + 1) f = (xorOver n f ^^ f (n + 1)) := by
  simp [xorOver, positions_succ, List.foldl_append]

theorem xorOver_congr {n : Nat} {f g : Nat → Bool} (h : ∀ i, 1 ≤ i → i ≤ n → f i = g i) : xorOver n f = xorOver n g := by
  induction n with
  | zero => rfl
  | succ n ih => rw [xorOver_succ, xorOver_succ, ih fun i h1 hn => h i h1 (by omega), h (n + 1) (by omega) (Nat.le_refl _)]

theorem xorOver_xor (n : Nat) (f g : Nat → Bool) : xorOver n (fun i => f i ^^ g i) = (xorOver n f ^^ xorOver n g) := by
  induction n with
  | zero => rfl
  | succ n ih =>
    simp only [xorOver_succ, ih, Bool.xor_assoc, Bool.xor_left_comm (f (n + 1))]

/-- A sum with one term. -/
theorem xorOver_single (n p : Nat) (b : Bool) :
    xorOver n (fun i => decide (i = p) && b) = (decide (1 ≤ p ∧ p ≤ n) && b) := by
  induction n with
  | zero => simp; omega
  | succ n ih =>
    rw [xorOver_succ, ih]
    by_cases hp : n + 1 = p
    · simp [← hp]
    · have : (1 ≤ p ∧ p ≤ n + 1) ↔ (1 ≤ p ∧ p ≤ n) := by omega
      simp [hp, this]

@[simp] theorem indexXor_zero (x : BitVec w) : indexXor 0 x = 0 := rfl

theorem indexXor_succ (n : Nat) (x : BitVec w) :
    indexXor (n + 1) x = indexXor n x ^^^ (if bitAt x (n + 1) then n + 1 else 0) := by
  simp only [indexXor, positions_succ, List.foldl_append, List.foldl_cons, List.foldl_nil]
  split <;> simp

theorem testBit_indexXor (n j : Nat) (x : BitVec w) :
    (indexXor n x).testBit j = xorOver n (fun i => i.testBit j && bitAt x i) := by
  induction n with
  | zero => simp
  | succ n ih =>
    rw [indexXor_succ, Nat.testBit_xor, ih, xorOver_succ]
    cases bitAt x (n + 1) <;> simp

theorem indexXor_xor (n : Nat) (x y : BitVec w) : indexXor n (x ^^^ y) = indexXor n x ^^^ indexXor n y := by
  refine Nat.eq_of_testBit_eq fun j => ?_
  simp only [Nat.testBit_xor, testBit_indexXor, bitAt_xor, Bool.and_xor_distrib_left, xorOver_xor]

theorem bitAt_oneBit {i : Nat} (h1 : 1 ≤ i) (hw : i ≤ w) (j : Nat) : bitAt (oneBit w i) j = decide (j = i) := by
  rw [Bool.eq_iff_iff]
  simp [bitAt, oneBit]
  omega

theorem indexXor_oneBit {n i : Nat} (h1 : 1 ≤ i) (hn : i ≤ n) (hw : n ≤ w) : indexXor n (oneBit w i) = i := by
  refine Nat.eq_of_testBit_eq fun j => ?_
  calc (indexXor n (oneBit w i)).testBit j
      = xorOver n (fun l => decide (l = i) && i.testBit j) := by
        rw [testBit_indexXor]
        refine xorOver_congr fun l _ _ => ?_
        by_cases hl : l = i <;> simp [bitAt_oneBit h1 (hn.trans hw), hl]
    _ = i.testBit j := by simp [xorOver_single, h1, hn]

/-- An XOR of indices below `2^r` is below `2^r`. -/
theorem indexXor_lt_two_pow {n r : Nat} (h : n < 2 ^ r) (x : BitVec w) : indexXor n x < 2 ^ r := by
  induction n with
  | zero => exact h
  | succ n ih =>
    rw [indexXor_succ]
    exact Nat.xor_lt_two_pow (ih (by omega)) (by split <;> omega)

/-- A word below `2^k` has no bit above index `k`. -/
theorem bitAt_of_toNat_lt {x : BitVec w} {k i : Nat} (h : x.toNat < 2 ^ k) (hi : k < i) : bitAt x i = false := by
  have hx : x.toNat < 2 ^ (i - 1) := h.trans_le (Nat.pow_le_pow_right (by decide) (by omega))
  simp [bitAt, BitVec.getLsbD, Nat.testBit_lt_two_pow hx]

end Sys2Proof.Machine

/-! ## What each stage of the two datapaths answers

One spec lemma per stage, at every word width `w` and for every walk `1..n` inside the Word (40_primitives.md to
42_decoder.md). -/

namespace Sys2Proof.Machine

variable {w : Nat}

/-- The parity of the data positions in `1..n` that `p` covers, as a total function (R54). -/
def dataParity (x : BitVec w) (p n : Nat) : Bool :=
  xorOver n (fun i => (!isParityPosition i && cover p i) && bitAt x i)

theorem parityStep_eq (x : BitVec w) (p : Nat) (acc : Bool) {i : Nat} (h1 : 1 ≤ i) (hw : i ≤ w) :
    parityStep x p acc i = some (acc ^^ ((!isParityPosition i && cover p i) && bitAt x i)) := by
  rw [parityStep, getBit_eq_some x h1 hw]
  cases !isParityPosition i && cover p i <;> simp

/-- `compute_parity` inside the Word (R54). -/
theorem computeParity_eq (x : BitVec w) (p : Nat) {n : Nat} (h : n ≤ w) :
    computeParity x p n = some (dataParity x p n) := by
  obtain ⟨b, hb, rfl⟩ := foldlM_positions (f := parityStep x p) (fun m b => b = dataParity x p m) rfl n fun m b hm hb =>
    ⟨_, parityStep_eq x p b (by omega) (by omega), by rw [hb, dataParity, dataParity, xorOver_succ]⟩
  exact hb

/-- A parity reads the data positions of `1..n` only. -/
theorem dataParity_congr {x y : BitVec w} {n : Nat} (p : Nat)
    (h : ∀ i, i ≤ n → isParityPosition i = false → bitAt x i = bitAt y i) : dataParity x p n = dataParity y p n := by
  refine xorOver_congr fun i _ hn => ?_
  cases hp : isParityPosition i with
  | true => rfl
  | false => rw [h i hn hp]

/-- The check at `2^j` covers the positions whose index has bit `j` (R54). -/
theorem cover_two_pow (j i : Nat) : cover (2 ^ j) i = i.testBit j := by
  rw [cover, Nat.and_two_pow]
  cases i.testBit j <;> simp

/-- Bit `j` of the XOR of the set indices is the check at `2^j`: the parity of its data positions against its own bit (R72). -/
theorem testBit_indexXor_eq_check (x : BitVec w) {n j : Nat} (h : 2 ^ j ≤ n) :
    (indexXor n x).testBit j = (dataParity x (2 ^ j) n ^^ bitAt x (2 ^ j)) := by
  have hsplit : ∀ i, (i.testBit j && bitAt x i) =
      (((!isParityPosition i && cover (2 ^ j) i) && bitAt x i) ^^ (decide (i = 2 ^ j) && bitAt x (2 ^ j))) := fun i => by
    rw [cover_two_pow]
    cases hp : isParityPosition i with
    | true =>
      obtain ⟨l, rfl⟩ := isParityPosition_iff.mp hp
      by_cases hl : l = j <;> simp [hl]
    | false =>
      have hne : i ≠ 2 ^ j := fun h => by simp [h] at hp
      simp [hne]
  rw [testBit_indexXor, xorOver_congr fun i _ _ => hsplit i, xorOver_xor, xorOver_single]
  simp [dataParity, h, Nat.one_le_two_pow]

/-! ### The encoder -/

/-- After positions `1..m`, the interleaver has placed the data bits there, and its count is `bitlen(m)` (R62). -/
def InterleaveInv (data : BitVec w) (m : Nat) (st : BitVec w × Nat) : Prop :=
  st.2 = bitLen m ∧
  ∀ i, bitAt st.1 i = (decide (i ≤ m) && !isParityPosition i && bitAt data (i - bitLen i))

theorem interleaveStep_inv {data : BitVec w} {m : Nat} {st : BitVec w × Nat} (hm : m < w) (h : InterleaveInv data m st) :
    ∃ st', interleaveStep data st (m + 1) = some st' ∧ InterleaveInv data (m + 1) st' := by
  obtain ⟨hcount, hbits⟩ := h
  have hle := bitLen_le m
  cases hp : isParityPosition (m + 1) with
  | true =>
    refine ⟨(st.1, st.2 + 1), by simp [interleaveStep, hp], by simp [hcount, bitLen_succ_of_parity hp], fun i => ?_⟩
    rcases eq_or_ne i (m + 1) with rfl | hne
    · simp [hbits, hp]
    · simp [hbits, show i ≤ m + 1 ↔ i ≤ m by omega]
  | false =>
    have hlen := bitLen_succ_of_data hp
    obtain ⟨acc, hacc, hset⟩ := setBit_spec st.1 (bitAt data (m + 1 - st.2)) (i := m + 1) (by omega) hm
    refine ⟨(acc, st.2), ?_, hcount.trans hlen.symm, fun i => ?_⟩
    · simp [interleaveStep, hp, getBit_eq_some data (i := m + 1 - st.2) (by omega) (by omega), hacc]
    · rcases eq_or_ne i (m + 1) with rfl | hne
      · simp [hset, hp, hlen, hcount]
      · simp [hset, hne, hbits, show i ≤ m + 1 ↔ i ≤ m by omega]

/-- The interleaver's word, bit by bit (R62). -/
theorem interleave_spec (data : BitVec w) {n : Nat} (h : n ≤ w) : ∃ acc, interleave n data = some acc ∧
    ∀ i, bitAt acc i = (decide (i ≤ n) && !isParityPosition i && bitAt data (i - bitLen i)) := by
  have h0 : InterleaveInv data 0 (0#w, 0) := ⟨rfl, fun i => by cases i <;> simp [bitAt_zero_index]⟩
  obtain ⟨st, hst, -, hbits⟩ := foldlM_positions (f := interleaveStep data) (InterleaveInv data) h0 n
    fun m st hm => interleaveStep_inv (by omega)
  exact ⟨st.1, by simp [interleave, hst], hbits⟩

/-- After positions `1..m`, the parities there stand in the accumulator that the walk began with (R63, R64). -/
def InsertInv (n : Nat) (acc : BitVec w) (m : Nat) (c : BitVec w) : Prop :=
  ∀ i, bitAt c i = if isParityPosition i = true ∧ i ≤ m then dataParity acc i n else bitAt acc i

theorem insertParityStep_inv {n m : Nat} {acc c : BitVec w} (hm : m < n) (hn : n ≤ w) (h : InsertInv n acc m c) :
    ∃ c', insertParityStep n c (m + 1) = some c' ∧ InsertInv n acc (m + 1) c' := by
  cases hp : isParityPosition (m + 1) with
  | true =>
    have hpar : dataParity c (m + 1) n = dataParity acc (m + 1) n :=
      dataParity_congr (m + 1) fun i _ hi => by rw [h i]; simp [hi]
    obtain ⟨c', hc', hset⟩ := setBit_spec c (dataParity acc (m + 1) n) (i := m + 1) (by omega) (by omega)
    refine ⟨c', by simp [insertParityStep, hp, computeParity_eq c _ hn, hpar, hc'], fun i => ?_⟩
    rcases eq_or_ne i (m + 1) with rfl | hne
    · simp [hset, hp]
    · simp [hset, hne, h i, show i ≤ m + 1 ↔ i ≤ m by omega]
  | false =>
    refine ⟨c, by simp [insertParityStep, hp], fun i => ?_⟩
    rcases eq_or_ne i (m + 1) with rfl | hne
    · simp [h (m + 1), hp]
    · simp [h i, show i ≤ m + 1 ↔ i ≤ m by omega]

/-- The parity tree's word, bit by bit, each parity that of the accumulator it began with (R63, R64). -/
theorem insertParities_spec (acc : BitVec w) {n : Nat} (h : n ≤ w) : ∃ c, insertParities n acc = some c ∧
    ∀ i, bitAt c i = if isParityPosition i = true ∧ i ≤ n then dataParity acc i n else bitAt acc i := by
  have h0 : InsertInv n acc 0 acc := fun i => by cases i <;> simp
  exact foldlM_positions (f := insertParityStep n) (InsertInv n acc) h0 n fun m c hm => insertParityStep_inv hm h

/-- ENCODE's datapath answers a word with the data at the data positions of `1..n`, every check even, and nothing above `n`
(R60 to R64). -/
theorem encodeWord_spec {r : Nat} (data : Data w) (h : nEncodedBits r ≤ w) : ∃ c, encodeWord r data = some c ∧
    (∀ i, i ≤ nEncodedBits r → isParityPosition i = false → bitAt c.bits i = bitAt data.bits (i - bitLen i)) ∧
    indexXor (nEncodedBits r) c.bits = 0 ∧
    ∀ i, nEncodedBits r < i → bitAt c.bits i = false := by
  obtain ⟨acc, hacc, haccBits⟩ := interleave_spec data.bits h
  obtain ⟨c, hc, hbits⟩ := insertParities_spec acc h
  have hdata : ∀ i, isParityPosition i = false → bitAt c i = bitAt acc i := fun i hi => by simp [hbits, hi]
  refine ⟨⟨c⟩, by simp [encodeWord, hacc, hc], fun i hn hi => ?_, Nat.eq_of_testBit_eq fun j => ?_, fun i hi => ?_⟩
  · simp [hdata i hi, haccBits, hn, hi]
  · rw [Nat.zero_testBit]
    by_cases hj : 2 ^ j ≤ nEncodedBits r
    · rw [testBit_indexXor_eq_check c hj, dataParity_congr (2 ^ j) fun i _ => hdata i]
      simp [hbits, hj]
    · exact Nat.testBit_lt_two_pow (indexXor_lt_two_pow (by omega) c)
  · simp [hbits, haccBits, show ¬ i ≤ nEncodedBits r by omega]

/-! ### The decoder -/

/-- After positions `1..m`, the syndrome holds the checks at the parity positions there (R72). -/
def SyndromeInv (n : Nat) (x : BitVec w) (m syn : Nat) : Prop :=
  ∀ j, syn.testBit j = (decide (2 ^ j ≤ m) && (indexXor n x).testBit j)

theorem syndromeStep_inv {n m syn : Nat} {x : BitVec w} (hm : m < n) (hn : n ≤ w) (h : SyndromeInv n x m syn) :
    ∃ syn', syndromeStep n x syn (m + 1) = some syn' ∧ SyndromeInv n x (m + 1) syn' := by
  have hsome : syndromeStep n x syn (m + 1) = some (if isParityPosition (m + 1) = true ∧
      (dataParity x (m + 1) n ^^ bitAt x (m + 1)) = true then syn ||| (m + 1) else syn) := by
    cases hp : isParityPosition (m + 1) <;>
      simp [syndromeStep, hp, computeParity_eq x _ hn, getBit_eq_some x (i := m + 1) (by omega) (by omega)]
  refine ⟨_, hsome, fun j => ?_⟩
  rcases eq_or_ne (2 ^ j) (m + 1) with hj | hj
  · have hcheck := testBit_indexXor_eq_check x (hj.trans_le hm)
    have hsyn : syn.testBit j = false := by simp [h j, hj]
    rw [← hj, hcheck]
    cases dataParity x (2 ^ j) n ^^ bitAt x (2 ^ j) <;> simp [hsyn]
  · have hle : 2 ^ j ≤ m + 1 ↔ 2 ^ j ≤ m := by omega
    rw [decide_eq_decide.mpr hle, ← h j]
    split_ifs with hfails
    · obtain ⟨l, hl⟩ := isParityPosition_iff.mp hfails.1
      rw [Nat.testBit_or, hl, Nat.testBit_two_pow_of_ne fun he => hj (by rw [← he, hl]), Bool.or_false]
    · rfl

/-- The syndrome is the XOR of the set indices (R72). -/
theorem syndrome_eq (x : BitVec w) {n : Nat} (h : n ≤ w) : syndrome n x = some (indexXor n x) := by
  have h0 : SyndromeInv n x 0 0 := fun j => by simp
  obtain ⟨syn, hsyn, hinv⟩ := foldlM_positions (f := syndromeStep n x) (SyndromeInv n x) h0 n
    fun m syn hm => syndromeStep_inv hm h
  have heq : syn = indexXor n x := Nat.eq_of_testBit_eq fun j => by
    by_cases hj : 2 ^ j ≤ n
    · simp [hinv j, hj]
    · simp [hinv j, hj, Nat.testBit_lt_two_pow (indexXor_lt_two_pow (show n < 2 ^ j by omega) x)]
  rw [← heq]
  exact hsyn

@[simp] theorem correct_zero (x : BitVec w) : correct 0 x = some x := rfl

/-- The bit at a non-zero syndrome is flipped (R73, R74). -/
theorem correct_eq_flip (x : BitVec w) {syn : Nat} (h1 : 1 ≤ syn) (hw : syn ≤ w) :
    correct syn x = some (x ^^^ oneBit w syn) := by
  obtain ⟨y, hy, hbits⟩ := setBit_spec x (!bitAt x syn) h1 hw
  have hflip : y = x ^^^ oneBit w syn := ext_bitAt fun i _ _ => by
    rw [hbits, bitAt_xor, bitAt_oneBit h1 hw]
    by_cases hi : i = syn <;> simp [hi]
  simp [correct, show syn ≠ 0 by omega, getBit_eq_some x h1 hw, hy, hflip]

/-- After positions `1..m`, the extractor has read the data positions there, and its count is `bitlen(m)` (R75). -/
def ExtractInv (c : BitVec w) (m : Nat) (st : BitVec w × Nat) : Prop :=
  st.2 = bitLen m ∧
  (∀ i, i ≤ m → isParityPosition i = false → bitAt st.1 (i - bitLen i) = bitAt c i) ∧
  ∀ d, m - bitLen m < d → bitAt st.1 d = false

theorem extractStep_inv {c : BitVec w} {m : Nat} {st : BitVec w × Nat} (hm : m < w) (h : ExtractInv c m st) :
    ∃ st', extractStep c st (m + 1) = some st' ∧ ExtractInv c (m + 1) st' := by
  obtain ⟨hcount, hread, habove⟩ := h
  have hle := bitLen_le m
  cases hp : isParityPosition (m + 1) with
  | true =>
    have hlen := bitLen_succ_of_parity hp
    refine ⟨(st.1, st.2 + 1), by simp [extractStep, hp], by simp [hcount, hlen], fun i hi hdata => ?_,
      fun d hd => habove d (by omega)⟩
    have hne : i ≠ m + 1 := fun h => by simp [h, hp] at hdata
    exact hread i (by omega) hdata
  | false =>
    have hlen := bitLen_succ_of_data hp
    obtain ⟨out, hout, hset⟩ := setBit_spec st.1 (bitAt c (m + 1)) (i := m + 1 - st.2) (by omega) (by omega)
    refine ⟨(out, st.2), ?_, hcount.trans hlen.symm, fun i hi hdata => ?_, fun d hd => ?_⟩
    · simp [extractStep, hp, getBit_eq_some c (i := m + 1) (by omega) hm, hout]
    · rcases eq_or_ne i (m + 1) with rfl | hne
      · simp [hset, hlen, hcount]
      · have hmono := dataIndex_mono (show i ≤ m by omega)
        simp [hset, show i - bitLen i ≠ m + 1 - st.2 by omega, hread i (by omega) hdata]
    · simp [hset, show d ≠ m + 1 - st.2 by omega, habove d (by omega)]

/-- The extractor's word: the data positions of `1..n`, and nothing above their number (R75). -/
theorem extract_spec (c : BitVec w) {n : Nat} (h : n ≤ w) : ∃ out, extract n c = some out ∧
    (∀ i, i ≤ n → isParityPosition i = false → bitAt out (i - bitLen i) = bitAt c i) ∧
    ∀ d, n - bitLen n < d → bitAt out d = false := by
  have h0 : ExtractInv c 0 (0#w, 0) := ⟨rfl, fun i hi _ => by simp [Nat.le_zero.mp hi, bitAt_zero_index], by simp⟩
  obtain ⟨st, hst, -, hbits⟩ := foldlM_positions (f := extractStep c) (ExtractInv c) h0 n
    fun m st hm => extractStep_inv (by omega)
  exact ⟨st.1, by simp [extract, hst], hbits⟩

/-- A word whose data positions hold `data` is extracted to `data`. -/
theorem extract_eq_of_dataBits {c data : BitVec w} {n : Nat} (h : n ≤ w)
    (hc : ∀ i, i ≤ n → isParityPosition i = false → bitAt c i = bitAt data (i - bitLen i))
    (hdata : data.toNat < 2 ^ (n - bitLen n)) : extract n c = some data := by
  obtain ⟨out, hout, hread, habove⟩ := extract_spec c h
  have heq : out = data := ext_bitAt fun d _ _ => by
    by_cases hd : d ≤ n - bitLen n
    · obtain ⟨i, hi, hpos, rfl⟩ := exists_position_of_dataIndex hd
      rw [hread i hi hpos, hc i hi hpos]
    · rw [habove d (by omega), bitAt_of_toNat_lt hdata (by omega)]
  rw [hout, heq]

/-- DECODE's datapath from its stages (R70). -/
theorem decodeWord_eq_of_stages {r : Nat} {x c out : BitVec w} (h : nEncodedBits r ≤ w)
    (hc : correct (indexXor (nEncodedBits r) x) x = some c) (hout : extract (nEncodedBits r) c = some out) :
    decodeWord r ⟨x⟩ = some (⟨out⟩, errorFlag (indexXor (nEncodedBits r) x)) := by
  simp [decodeWord, syndrome_eq x h, hc, hout]

/-- The corrector answers on the syndrome of any word. -/
theorem correct_indexXor_isSome (r : Nat) (x : BitVec w) (h : nEncodedBits r ≤ w) :
    ∃ c, correct (indexXor (nEncodedBits r) x) x = some c := by
  have hlt : indexXor (nEncodedBits r) x < 2 ^ r :=
    indexXor_lt_two_pow (Nat.sub_lt (Nat.two_pow_pos r) Nat.one_pos) x
  rcases Nat.eq_zero_or_pos (indexXor (nEncodedBits r) x) with h0 | hpos
  · exact ⟨x, by rw [h0, correct_zero]⟩
  · exact ⟨_, correct_eq_flip x hpos (by simp only [nEncodedBits] at *; omega)⟩

end Sys2Proof.Machine

/-! ## O33: round trip and single-error correction at every width -/

namespace Sys2Proof.Machine

/-- Settles O33: the codeword has syndrome 0 and a flip at `i` makes it `i`, so the corrector restores the codeword, from which
the extractor reads the data. -/
theorem codecCorrectsAtEveryWidth : Obligations.CodecCorrectsAtEveryWidth := by
  intro w r data (hw : nEncodedBits r ≤ w) hdata
  obtain ⟨⟨c⟩, hc, hbits, hsyn, -⟩ := encodeWord_spec (r := r) data hw
  have hextract : extract (nEncodedBits r) c = some data.bits :=
    extract_eq_of_dataBits hw hbits (by rw [bitLen_nEncodedBits]; exact hdata)
  refine ⟨⟨c⟩, hc, ?_, fun i h1 (hn : i ≤ nEncodedBits r) => ?_⟩
  · have hcorrect : correct (indexXor (nEncodedBits r) c) c = some c := by rw [hsyn, correct_zero]
    rw [decodeWord_eq_of_stages hw hcorrect hextract, hsyn]
    rfl
  · have hsyn' : indexXor (nEncodedBits r) (c ^^^ oneBit w i) = i := by
      rw [indexXor_xor, hsyn, indexXor_oneBit h1 hn hw, Nat.zero_xor]
    have hcorrect : correct (indexXor (nEncodedBits r) (c ^^^ oneBit w i)) (c ^^^ oneBit w i) = some c := by
      rw [hsyn', correct_eq_flip _ h1 (hn.trans hw), BitVec.xor_assoc, BitVec.xor_self, BitVec.xor_zero]
    rw [decodeWord_eq_of_stages hw hcorrect hextract, hsyn']
    simp [errorFlag, show i ≠ 0 by omega]

end Sys2Proof.Machine

/-! ## O43: a response depends on its command only -/

namespace Sys2Proof.Machine

/-! ### Every command answers (R107): a codeword that fits in the Word keeps both datapaths inside it -/

theorem encodeWord_isSome {w r : Nat} (data : Data w) (h : nEncodedBits r ≤ w) : ∃ c, encodeWord r data = some c := by
  obtain ⟨c, hc, -⟩ := encodeWord_spec data h
  exact ⟨c, hc⟩

theorem decodeWord_isSome {w r : Nat} (x : Encoded w) (h : nEncodedBits r ≤ w) :
    ∃ out hasError, decodeWord r x = some (out, hasError) := by
  obtain ⟨c, hc⟩ := correct_indexXor_isSome r x.bits h
  obtain ⟨out, hout, -⟩ := extract_spec c h
  exact ⟨_, _, decodeWord_eq_of_stages h hc hout⟩

theorem nEncodedBits_le_of_encodeFault {w r : Nat} {data : Data w} (h : encodeFault r data = none) : nEncodedBits r ≤ w := by
  rw [encodeFault_eq] at h
  split_ifs at h with hr
  exact Nat.not_lt.mp hr

theorem nEncodedBits_le_of_decodeFault {w r : Nat} {x : Encoded w} (h : decodeFault r x = none) : nEncodedBits r ≤ w := by
  rw [decodeFault_eq] at h
  split_ifs at h with hr
  exact Nat.not_lt.mp hr

/-- What a command can answer, said once for both: a fault that it reports in every state, or a word and a flag that it drives
in every state (R31, R104). -/
theorem exec_answers (i : Instr) :
    (∃ cause, ∀ s, exec i s = .next (raiseFault cause i s)) ∨
    (∃ word hasError, ∀ s, exec i s = .next (drive word hasError none s)) := by
  cases i with
  | encode r data =>
    cases h : encodeFault r.toNat data with
    | some cause => exact .inl ⟨cause, execEncode_of_fault h⟩
    | none =>
      obtain ⟨c, hc⟩ := encodeWord_isSome data (nEncodedBits_le_of_encodeFault h)
      exact .inr ⟨c.bits, false, execEncode_of_legal h hc⟩
  | decode r x =>
    cases h : decodeFault r.toNat x with
    | some cause => exact .inl ⟨cause, execDecode_of_fault h⟩
    | none =>
      obtain ⟨out, hasError, ho⟩ := decodeWord_isSome x (nEncodedBits_le_of_decodeFault h)
      exact .inr ⟨out.bits, hasError, execDecode_of_legal h ho⟩

/-- The defined part of a faulting response is its cause (R105). -/
theorem observed_raiseFault (cause : Cause) (i : Instr) (s : State) :
    observed (response (raiseFault cause i s)) = (causeCode cause, none) := by
  simp [observed, response]

/-- The defined part of a response without a fault is its word and its flag (R105). -/
theorem observed_drive (word : Word) (hasError : Bool) (s : State) :
    observed (response (drive word hasError none s)) = (0, some (word, hasError)) := by
  simp [observed, response, causeWire, faultWire]

/-- In any two states a command answers, and the defined part of the response is the same. -/
theorem observed_exec_eq (i : Instr) (s s' : State) : ∃ t t', exec i s = .next t ∧ exec i s' = .next t' ∧
    observed (response t) = observed (response t') := by
  obtain ⟨cause, h⟩ | ⟨word, hasError, h⟩ := exec_answers i
  · exact ⟨_, _, h s, h s', by rw [observed_raiseFault, observed_raiseFault]⟩
  · exact ⟨_, _, h s, h s', by rw [observed_drive, observed_drive]⟩

/-! ### The command word and the command port -/

@[simp] theorem opField_commandWord (i : Instr) : opField (commandWord i) = opOf i := by
  rw [opField, commandWord, BitVec.extractLsb'_append_eq_of_le (by decide)]
  exact BitVec.extractLsb'_append_eq_left

@[simp] theorem rField_commandWord (i : Instr) : rField (commandWord i) = rOf i := by
  rw [rField, commandWord, BitVec.extractLsb'_append_eq_of_le (by decide)]
  exact BitVec.extractLsb'_append_eq_right

@[simp] theorem wordField_commandWord (i : Instr) : wordField (commandWord i) = wordOf i :=
  BitVec.extractLsb'_append_eq_right

/-- The three fields of a command word are the whole of it (R32). -/
theorem fields_append (cmd : BitVec Config.CW) : opField cmd ++ rField cmd ++ wordField cmd = cmd := by
  have hhigh : opField cmd ++ rField cmd = cmd.extractLsb' Config.W (1 + Config.RW) :=
    BitVec.extractLsb'_append_extractLsb'_eq_extractLsb' (by decide)
  rw [hhigh]
  exact BitVec.extractLsb'_append_extractLsb'

theorem decodeCommand_commandWord (i : Instr) : decodeCommand (commandWord i) = i := by
  cases i <;> simp [decodeCommand, opOf, rOf, wordOf]

theorem fetch_present (i : Instr) (s : State) : fetch (present i s) = i := by
  have hwires : commandWires (present i s) = commandWord i := fields_append (commandWord i)
  rw [fetch, hwires, decodeCommand_commandWord]

theorem present_eq (i : Instr) (s : State) :
    present i s = { s with cmdValid := true, cmdOp := opOf i, cmdR := rOf i, cmdWord := wordOf i } := by
  simp [present, placeCommand]

/-- A transaction executes the command that the host presents (R31). -/
theorem transact_eq_exec (i : Instr) (s : State) : transact i s = exec i (present i s) := by
  rw [transact, step, fetch_present]

/-- Settles O43: a transaction is `exec` of the command itself, whose answer is the same in every state up to free values. -/
theorem responseDependsOnTheCommandOnly : Obligations.ResponseDependsOnTheCommandOnly := by
  refine ⟨fun i s => ⟨transact_eq_exec i s, present_eq i s⟩, fun i s s' => ?_⟩
  rw [transact_eq_exec, transact_eq_exec]
  exact observed_exec_eq i (present i s) (present i s')

end Sys2Proof.Machine

/-! ## O46: the state before the first command is settled -/

namespace Sys2Proof.Machine

theorem xorOver_false (n : Nat) : xorOver n (fun _ => false) = false := by
  induction n with
  | zero => exact xorOver_zero _
  | succ n ih => rw [xorOver_succ, ih, Bool.xor_false]

/-- The word 0 is the codeword of the data 0, whatever the number of parity bits. -/
theorem isCodewordOf_zero (w r : Nat) : IsCodewordOf r (0#w) 0#w := by
  refine ⟨fun pos _ _ => ?_, fun j _ => ?_, ?_⟩
  · rw [bitAt_zero, bitAt_zero]
  · simpa using xorOver_false (2 ^ r - 1)
  · simp

/-- The command wires of the reset state hold `ENCODE(0, 0)`, which has no fault (R104). -/
theorem causeFormula_reset : causeFormula State.reset.cmdOp State.reset.cmdR State.reset.cmdWord = 0 := by
  decide

/-- Settles O46: the wires hold `ENCODE(0, 0)`, which is legal and whose codeword is the 0 on the response port; the clause of
DECODE has a false premise. -/
theorem resetIsSettled : Obligations.ResetIsSettled := by
  refine ⟨rfl, causeFormula_reset.symm, rfl, fun _ _ => ⟨rfl, isCodewordOf_zero _ _⟩, fun _ hop => ?_⟩
  exact absurd hop (by decide)

end Sys2Proof.Machine

/-! ## The command word both ways (R32, R34, R39), its fields and the response word (R33): O4, O5, O1, O3, O6, O2, O8 -/

namespace Sys2Proof.Machine

theorem decodeNumber_commandWord (i : Instr) : decodeNumber (commandWord i).toNat = .ok i := by
  rw [decodeNumber, if_pos (commandWord i).isLt, BitVec.ofNat_toNat, BitVec.setWidth_eq, decodeCommand_commandWord]

/-- Settles O4: the fields of the command word are those of the command, and a table word of 73 bits or more cuts none off. -/
theorem decodeOfEncodeIsTheCommand : Obligations.DecodeOfEncodeIsTheCommand := by
  refine fun i => ⟨decodeCommand_commandWord i, fun nbits h => ?_⟩
  have hlt : (commandWord i).toNat < 2 ^ nbits := (commandWord i).isLt.trans_le (Nat.pow_le_pow_right (by decide) h)
  rw [decodeTableWord, Nat.mod_eq_of_lt hlt, decodeNumber_commandWord]
  rfl

@[simp] theorem opOf_decodeCommand (cmd : BitVec Config.CW) : opOf (decodeCommand cmd) = opField cmd := by
  rw [decodeCommand]
  split_ifs with hop
  · exact hop.symm
  · exact ((BitVec.eq_zero_or_eq_one (opField cmd)).resolve_left hop).symm

@[simp] theorem rOf_decodeCommand (cmd : BitVec Config.CW) : rOf (decodeCommand cmd) = rField cmd := by
  rw [decodeCommand]
  split_ifs <;> rfl

@[simp] theorem wordOf_decodeCommand (cmd : BitVec Config.CW) : wordOf (decodeCommand cmd) = wordField cmd := by
  rw [decodeCommand]
  split_ifs <;> rfl

/-- Settles O5: the command has the fields of the word it was decoded from, and they are the whole word. -/
theorem encodeOfDecodeIsTheWord : Obligations.EncodeOfDecodeIsTheWord := fun cmd => by
  rw [commandWord, opOf_decodeCommand, rOf_decodeCommand, wordOf_decodeCommand, fields_append]

/-- Settles O1: the three slices are the model's fields at `W = 64`, `RW = 8`. -/
theorem commandWordFields : Obligations.CommandWordFields :=
  ⟨fun r data => ⟨opField_commandWord (.encode r data), rField_commandWord (.encode r data),
      wordField_commandWord (.encode r data)⟩,
    fun r encoded => ⟨opField_commandWord (.decode r encoded), rField_commandWord (.decode r encoded),
      wordField_commandWord (.decode r encoded)⟩⟩

/-- Bit 72 of a command word is its operation select (R32, R34). -/
theorem getLsbD_72_eq_opField (cmd : BitVec Config.CW) : cmd.getLsbD 72 = (opField cmd == 1#1) :=
  BitVec.getLsbD_eq_extractLsb' cmd 72

/-- Settles O3: bit 72 is the field that the decoder tests. -/
theorem operationSelect : Obligations.OperationSelect := by
  intro cmd
  rw [getLsbD_72_eq_opField]
  refine ⟨fun h => if_pos ?_, fun h => if_neg ?_⟩
  · exact (BitVec.eq_zero_or_eq_one _).resolve_right (by simpa using h)
  · rw [beq_iff_eq.mp h]
    decide

/-- Settles O6: a number of at most 73 bits is a command word, which is that of the command it decodes to (O5). -/
theorem numbersThatDecode : Obligations.NumbersThatDecode := by
  refine fun v => ⟨fun h => ⟨decodeCommand (BitVec.ofNat Config.CW v), if_pos h, ?_⟩, fun h => if_neg (Nat.not_lt.mpr h)⟩
  rw [encodeOfDecodeIsTheWord, BitVec.toNat_ofNat]
  exact Nat.mod_eq_of_lt h

/-- Settles O2: each field is cut out of the appended word where it was put in (R33). -/
theorem responseWordFields : Obligations.ResponseWordFields := by
  refine fun rsp => ⟨?_, ?_, ?_, BitVec.extractLsb'_append_eq_right⟩ <;>
    rw [responseWord, BitVec.extractLsb'_append_eq_of_le (by decide)]
  · rw [BitVec.extractLsb'_append_eq_of_le (by decide)]
    exact BitVec.extractLsb'_append_eq_left
  · rw [BitVec.extractLsb'_append_eq_of_le (by decide)]
    exact BitVec.extractLsb'_append_eq_right
  · exact BitVec.extractLsb'_append_eq_right

/-! ### The command port (R31) -/

/-- The block fetches the command whose fields are on the command wires. -/
theorem fetch_eq_of_fields {i : Instr} {s : State} (hop : opOf i = s.cmdOp) (hr : rOf i = s.cmdR)
    (hword : wordOf i = s.cmdWord) : fetch s = i := by
  have hwires : commandWires s = commandWord i := by rw [commandWires, commandWord, hop, hr, hword]
  rw [fetch, hwires, decodeCommand_commandWord]

/-- Settles O8: the command wires are the fields of the command that the step executes. -/
theorem stepRunsTheCommandOnThePort : Obligations.StepRunsTheCommandOnThePort := by
  refine fun s => ⟨fun hop => ?_, fun hop => ?_, fun i hi => by rw [step, fetch, hi]⟩
  · rw [step, fetch_eq_of_fields (i := .encode s.cmdR ⟨s.cmdWord⟩) hop.symm rfl rfl]
  · rw [step, fetch_eq_of_fields (i := .decode s.cmdR ⟨s.cmdWord⟩) hop.symm rfl rfl]

end Sys2Proof.Machine

/-! ## The data positions in order (30_encoding.md, R36): O15 -/

namespace Sys2Proof.Machine

/-- The data positions are the positions that are no parity position (R35). -/
theorem isDataPos_iff {pos : Nat} : IsDataPos pos ↔ 1 ≤ pos ∧ isParityPosition pos = false := by
  rw [IsDataPos, ← Bool.not_eq_true, isParityPosition_iff, not_exists]

/-- `bitlen(n)` counts the parity positions of `1..n`. -/
theorem length_filter_isParityPosition (n : Nat) : ((positions n).filter isParityPosition).length = bitLen n := by
  induction n with
  | zero => rfl
  | succ n ih =>
    rw [positions_succ, List.filter_append, List.length_append, ih, bitLen_succ]
    cases h : isParityPosition (n + 1) <;> simp [h]

/-- A data position is at a greater data bit index than every position before it. -/
theorem dataIndex_lt {a b : Nat} (h : a < b) (hb : isParityPosition b = false) : a - bitLen a < b - bitLen b := by
  obtain ⟨m, rfl⟩ : ∃ m, b = m + 1 := ⟨b - 1, by omega⟩
  have hlen := bitLen_succ_of_data hb
  have hmono := dataIndex_mono (show a ≤ m by omega)
  have hle := bitLen_le m
  omega

/-- Two data positions of one data bit index are the same. -/
theorem eq_of_dataIndex_eq {a b : Nat} (ha : isParityPosition a = false) (hb : isParityPosition b = false)
    (h : a - bitLen a = b - bitLen b) : a = b := by
  rcases Nat.lt_trichotomy a b with hlt | heq | hgt
  · exact absurd h (dataIndex_lt hlt hb).ne
  · exact heq
  · exact absurd h (dataIndex_lt hgt ha).ne'

/-- Settles O15: the position is found by the walk `1..n` and unique because the data bit index grows at each data position. -/
theorem dataPositionsInOrder : Obligations.DataPositionsInOrder := by
  refine ⟨fun pos hpos => ?_, fun r d h1 hd => ?_⟩
  · obtain ⟨hpos1, hdata⟩ := isDataPos_iff.mp hpos
    obtain ⟨m, rfl⟩ : ∃ m, pos = m + 1 := ⟨pos - 1, by omega⟩
    rw [Nat.add_sub_cancel, length_filter_isParityPosition, bitLen_succ_of_data hdata]
    exact ⟨rfl, Nat.lt_succ_of_le (bitLen_le m)⟩
  · obtain ⟨pos, hn, hdata, hidx⟩ := exists_position_of_dataIndex (n := nEncodedBits r) (d := d)
      (by rw [bitLen_nEncodedBits]; exact hd)
    refine ⟨pos, ⟨isDataPos_iff.mpr ⟨by omega, hdata⟩, hn, hidx⟩, fun pos' ⟨hpos', _, hidx'⟩ => ?_⟩
    exact eq_of_dataIndex_eq (isDataPos_iff.mp hpos').2 hdata (hidx'.trans hidx.symm)

end Sys2Proof.Machine

/-! ## What the two datapaths answer, in the terms of the claims (R60, R70) -/

namespace Sys2Proof.Machine

variable {w : Nat}

/-- A word with no bit above index `k` is below `2^k`. -/
theorem toNat_lt_of_bitAt {x : BitVec w} {k : Nat} (h : ∀ i, k < i → bitAt x i = false) : x.toNat < 2 ^ k :=
  Nat.lt_pow_two_of_testBit _ fun i hi => by simpa [bitAt, BitVec.getLsbD] using h (i + 1) (by omega)

/-- A check of a word is the bit of its syndrome (R72). -/
theorem xorOver_check (n j : Nat) (x : BitVec w) :
    xorOver n (fun i => decide (i &&& 2 ^ j ≠ 0) && bitAt x i) = (indexXor n x).testBit j := by
  rw [testBit_indexXor]
  exact xorOver_congr fun i _ _ => congrArg (· && bitAt x i) (cover_two_pow j i)

theorem indexXor_nEncodedBits_le (r : Nat) (x : BitVec w) : indexXor (nEncodedBits r) x ≤ nEncodedBits r :=
  Nat.le_sub_one_of_lt (indexXor_lt_two_pow (Nat.sub_lt (Nat.two_pow_pos r) Nat.one_pos) x)

/-- The corrected word is the operand with the bit at the syndrome flipped (R73, R74). -/
theorem correct_spec (x : BitVec w) {syn : Nat} (hw : syn ≤ w) : ∃ c, correct syn x = some c ∧
    ∀ i, 1 ≤ i → bitAt c i = (bitAt x i ^^ decide (i = syn)) := by
  rcases Nat.eq_zero_or_pos syn with rfl | hpos
  · exact ⟨x, correct_zero x, fun i hi => by simp [show i ≠ 0 by omega]⟩
  · exact ⟨_, correct_eq_flip x hpos hw, fun i _ => by rw [bitAt_xor, bitAt_oneBit hpos hw]⟩

theorem encodeWord_isCodewordOf {r : Nat} (data : Data w) (h : nEncodedBits r ≤ w) :
    ∃ c, encodeWord r data = some c ∧ IsCodewordOf r data.bits c.bits := by
  obtain ⟨c, hc, hbits, hsyn, habove⟩ := encodeWord_spec data h
  refine ⟨c, hc, fun pos hpos hn => hbits pos hn (isDataPos_iff.mp hpos).2, fun j _ => ?_, toNat_lt_of_bitAt habove⟩
  exact (xorOver_check (nEncodedBits r) j c.bits).trans (by rw [hsyn, Nat.zero_testBit])

theorem decodeWord_isDecodedOf {r : Nat} (x : Encoded w) (h : nEncodedBits r ≤ w) :
    ∃ out, decodeWord r x = some (out, errorFlag (indexXor (nEncodedBits r) x.bits)) ∧ IsDecodedOf r x.bits out.bits := by
  obtain ⟨c, hc, hflip⟩ := correct_spec x.bits ((indexXor_nEncodedBits_le r x.bits).trans h)
  obtain ⟨out, hout, hread, habove⟩ := extract_spec c h
  refine ⟨⟨out⟩, decodeWord_eq_of_stages h hc hout, fun pos hpos hn => ?_, toNat_lt_of_bitAt ?_⟩
  · obtain ⟨h1, hdata⟩ := isDataPos_iff.mp hpos
    exact (hread pos hn hdata).trans (hflip pos h1)
  · rw [bitLen_nEncodedBits] at habove
    exact habove

end Sys2Proof.Machine

/-! ## What a command answers, by its fault (R39, R104): O24, O25, O23, O45 -/

namespace Sys2Proof.Machine

/-- The fault that the precondition stage of a command finds (R61, R71). -/
def commandFault : Instr → Option Cause
  | .encode r data => encodeFault r.toNat data
  | .decode r encoded => decodeFault r.toNat encoded

/-- The word and the flag that a command without a fault is answered with (R60, R70). -/
def IsAnswerOf : Instr → Word → Bool → Prop
  | .encode r data, word, hasError => hasError = false ∧ IsCodewordOf r.toNat data.bits word
  | .decode r encoded, word, hasError =>
    hasError = decide (indexXor (2 ^ r.toNat - 1) encoded.bits ≠ 0) ∧ IsDecodedOf r.toNat encoded.bits word

theorem exec_of_fault {i : Instr} {cause : Cause} (h : commandFault i = some cause) (s : State) :
    exec i s = .next (raiseFault cause i s) := by
  cases i with
  | encode r data => exact execEncode_of_fault h s
  | decode r encoded => exact execDecode_of_fault h s

theorem exec_of_legal {i : Instr} (h : commandFault i = none) :
    ∃ word hasError, IsAnswerOf i word hasError ∧ ∀ s, exec i s = .next (drive word hasError none s) := by
  cases i with
  | encode r data =>
    obtain ⟨c, hc, hcode⟩ := encodeWord_isCodewordOf data (nEncodedBits_le_of_encodeFault h)
    exact ⟨c.bits, false, ⟨rfl, hcode⟩, execEncode_of_legal h hc⟩
  | decode r encoded =>
    obtain ⟨out, ho, hdecoded⟩ := decodeWord_isDecodedOf encoded (nEncodedBits_le_of_decodeFault h)
    exact ⟨out.bits, _, ⟨rfl, hdecoded⟩, execDecode_of_legal h ho⟩

/-- The codeword is longer than the machine's Word exactly for the `r` above `R_MAX = 6` (R4). -/
theorem codeword_exceeds_iff (r : Nat) : 2 ^ r - 1 > 64 ↔ r > 6 := by
  constructor
  · intro h
    by_contra hr
    have : 2 ^ r ≤ 2 ^ 6 := Nat.pow_le_pow_right (by decide) (by omega)
    omega
  · intro h
    have : 2 ^ 7 ≤ 2 ^ r := Nat.pow_le_pow_right (by decide) h
    omega

/-- ENCODE's precondition stage at the machine's width (R61). -/
theorem encodeFault_W (r : Nat) (data : Data Config.W) : encodeFault r data =
    if r > 6 then some .rRange else if data.bits.toNat ≥ 2 ^ (2 ^ r - 1 - r) then some .dataRange else none := by
  rw [encodeFault_eq]
  simp only [codeword_exceeds_iff]

/-- DECODE's precondition stage at the machine's width (R71). -/
theorem decodeFault_W (r : Nat) (encoded : Encoded Config.W) : decodeFault r encoded =
    if r > 6 then some .rRange else if encoded.bits.toNat ≥ 2 ^ (2 ^ r - 1) then some .codewordRange else none := by
  rw [decodeFault_eq]
  simp only [codeword_exceeds_iff]

/-- The commands that the precondition stages pass are the well-formed ones (R39). -/
theorem commandFault_eq_none_iff (i : Instr) : commandFault i = none ↔ i.wellFormed = true := by
  cases i with
  | encode r data =>
    refine Iff.trans ?_ (Laws.LegalFields.encode r data).symm
    simp only [commandFault, encodeFault_W, opOf, rOf, wordOf]
    split_ifs <;> simp <;> omega
  | decode r encoded =>
    refine Iff.trans ?_ (Laws.LegalFields.decode r encoded).symm
    simp only [commandFault, decodeFault_W, opOf, rOf, wordOf]
    split_ifs <;> simp <;> omega

/-- R104's formula on the fields of a command is the code of its fault. -/
theorem causeFormula_eq (i : Instr) : causeFormula (opOf i) (rOf i) (wordOf i) = causeWire (commandFault i) := by
  cases i with
  | encode r data =>
    rw [commandFault, encodeFault_W, apply_ite causeWire, apply_ite causeWire]
    simp [causeFormula, opOf, rOf, wordOf, causeWire, causeCode]
  | decode r encoded =>
    rw [commandFault, decodeFault_W, apply_ite causeWire, apply_ite causeWire]
    simp [causeFormula, opOf, rOf, wordOf, causeWire, causeCode]

/-- Settles O24: a command reports its fault or its datapath answers, and a step executes a command. -/
theorem everyCommandAnswers : Obligations.EveryCommandAnswers := by
  have hexec : ∀ i s, ∃ t, exec i s = .next t := fun i s => by
    obtain ⟨cause, h⟩ | ⟨word, hasError, h⟩ := exec_answers i
    · exact ⟨_, h s⟩
    · exact ⟨_, h s⟩
  exact ⟨hexec, fun s => hexec (fetch s) s⟩

/-- Settles O25: a command without a fault drives the fault wire 0, any other raises it. -/
theorem wellFormedIffNoFault : Obligations.WellFormedIffNoFault := by
  intro i s
  rw [← commandFault_eq_none_iff]
  cases h : commandFault i with
  | some cause => exact ⟨_, exec_of_fault h s, by simp⟩
  | none =>
    obtain ⟨word, hasError, -, hexec⟩ := exec_of_legal h
    exact ⟨_, hexec s, by simp [causeWire, faultWire]⟩

/-- Settles O23: reporting a fault and driving an answer both keep the command wires, and only the report draws. -/
theorem commandsChangeTheResponsePortOnly : Obligations.CommandsChangeTheResponsePortOnly := by
  intro i s t ht
  obtain ⟨cause, h⟩ | ⟨word, hasError, h⟩ := exec_answers i
  · obtain rfl : raiseFault cause i s = t := by simpa [h] using ht
    simp
  · obtain rfl : drive word hasError none s = t := by simpa [h] using ht
    simp [causeWire, faultWire]

/-! ### The response port after a step -/

theorem fetch_fields (s : State) :
    opOf (fetch s) = s.cmdOp ∧ rOf (fetch s) = s.cmdR ∧ wordOf (fetch s) = s.cmdWord := by
  rcases BitVec.eq_zero_or_eq_one s.cmdOp with hop | hop
  · rw [fetch_eq_of_fields (i := .encode s.cmdR ⟨s.cmdWord⟩) hop.symm rfl rfl]
    exact ⟨hop.symm, rfl, rfl⟩
  · rw [fetch_eq_of_fields (i := .decode s.cmdR ⟨s.cmdWord⟩) hop.symm rfl rfl]
    exact ⟨hop.symm, rfl, rfl⟩

/-- The answer in the two clauses of the operation select (R34), as the wires of a port hold it. -/
theorem isAnswerOf_iff (i : Instr) (word : Word) (hasError : Bool) : IsAnswerOf i word hasError ↔
    (opOf i = 0 → hasError = false ∧ IsCodewordOf (rOf i).toNat (wordOf i) word) ∧
    (opOf i = 1 → hasError = decide (indexXor (2 ^ (rOf i).toNat - 1) (wordOf i) ≠ 0) ∧
      IsDecodedOf (rOf i).toNat (wordOf i) word) := by
  cases i with
  | encode r data => exact ⟨fun h => ⟨fun _ => h, fun hop => absurd hop (show 0#1 ≠ 1 by decide)⟩, fun h => h.1 rfl⟩
  | decode r encoded => exact ⟨fun h => ⟨fun hop => absurd hop (show 1#1 ≠ 0 by decide), fun _ => h⟩, fun h => h.2 rfl⟩

/-- The response port is settled exactly when it answers the command whose fields are on the command wires. -/
theorem settled_iff_of_fields {i : Instr} {t : State} (hop : opOf i = t.cmdOp) (hr : rOf i = t.cmdR)
    (hword : wordOf i = t.cmdWord) : Settled t ↔
      t.rspValid = t.cmdValid ∧ t.rspCause = causeWire (commandFault i) ∧ t.rspFault = faultWire t.rspCause ∧
      (t.rspFault = false → IsAnswerOf i t.rspWord t.rspHasError) := by
  rw [Settled, ← hop, ← hr, ← hword, causeFormula_eq, isAnswerOf_iff, imp_and (α := t.rspFault = false)]
  rfl

/-- Settles O45: the step executes the command on the wires, which reports its fault or drives its answer and keeps them. -/
theorem everyStepSettlesTheResponsePort : Obligations.EveryStepSettlesTheResponsePort := by
  intro s t ht
  obtain ⟨hop, hr, hword⟩ := fetch_fields s
  cases hfault : commandFault (fetch s) with
  | some cause =>
    obtain rfl : raiseFault cause (fetch s) s = t := by simpa [step, exec_of_fault hfault] using ht
    refine (settled_iff_of_fields (t := raiseFault cause (fetch s) s) hop hr hword).mpr ⟨rfl, ?_, rfl, by simp⟩
    rw [hfault, raiseFault_rspCause, causeWire]
  | none =>
    obtain ⟨word, hasError, hanswer, hexec⟩ := exec_of_legal hfault
    obtain rfl : drive word hasError none s = t := by simpa [step, hexec] using ht
    refine (settled_iff_of_fields (t := drive word hasError none s) hop hr hword).mpr ⟨rfl, ?_, rfl, fun _ => hanswer⟩
    rw [hfault, drive_rspCause]

end Sys2Proof.Machine

/-! ## The bit primitives (40_primitives.md, R50 to R55): O12, O14, O10, O11, O13 -/

namespace Sys2Proof.Machine

variable {w : Nat}

/-- Settles O12: an index is a parity position when one bit of it is set, and R52 is the definition. -/
theorem parityPositionsArePowersOfTwo : Obligations.ParityPositionsArePowersOfTwo :=
  ⟨fun _ => isParityPosition_iff, fun _ => rfl⟩

/-- Settles O14: both parities are the same sum over the data positions of `1..nBits`. -/
theorem parityReadsDataPositionsOnly : Obligations.ParityReadsDataPositionsOnly := by
  intro w x y p nBits hw hxy
  rw [computeParity_eq x p hw, computeParity_eq y p hw]
  refine congrArg some (dataParity_congr p fun i hn hdata => ?_)
  rcases Nat.eq_zero_or_pos i with rfl | h1
  · rw [bitAt_zero_index, bitAt_zero_index]
  · exact hxy i (isDataPos_iff.mpr ⟨h1, hdata⟩) hn

/-! ### `get_bit` and `set_bit` (R50, R51) -/

theorem toNat_bitAt (x : BitVec w) {i : Nat} (h1 : 1 ≤ i) : (bitAt x i).toNat = (x.toNat >>> (i - 1)) &&& 1 := by
  rw [bitAt, decide_eq_true h1, Bool.true_and, BitVec.getLsbD, Nat.toNat_testBit, Nat.and_one_is_mod,
    Nat.shiftRight_eq_div_pow]

/-- Settles O10: inside `1..w` the bit is that of the shifted word. -/
theorem getBitRule : Obligations.GetBitRule := by
  refine ⟨fun w x i => ⟨fun h1 hw => ?_, getBit_eq_none x⟩, by decide, by decide, by decide⟩
  exact ⟨bitAt x i, getBit_eq_some x h1 hw, toNat_bitAt x h1⟩

/-- `get_bit` reads nothing of the word but its bit at the index. -/
theorem getBit_congr {x y : BitVec w} {i : Nat} (h : bitAt x i = bitAt y i) : getBit x i = getBit y i := by
  by_cases hi : 1 ≤ i ∧ i ≤ w
  · rw [getBit_eq_some x hi.1 hi.2, getBit_eq_some y hi.1 hi.2, h]
  · rw [getBit_eq_none x hi, getBit_eq_none y hi]

theorem setBit_eq_some (x : BitVec w) (b : Bool) {i : Nat} (h1 : 1 ≤ i) (hw : i ≤ w) :
    setBit x i b = some ((x &&& ~~~oneBit w i) ||| (if b then oneBit w i else 0#w)) :=
  if_pos ⟨h1, hw⟩

/-- Forcing the value already there changes nothing (R51). -/
theorem setBit_same (x : BitVec w) {i : Nat} (h1 : 1 ≤ i) (hw : i ≤ w) : setBit x i (bitAt x i) = some x := by
  obtain ⟨y, hy, hbits⟩ := setBit_spec x (bitAt x i) h1 hw
  rw [hy, ext_bitAt (x := y) (y := x) fun j _ _ => ?_]
  rw [hbits]
  split_ifs with hj
  · rw [hj]
  · rfl

/-- Forcing the other value flips the bit (R51). -/
theorem setBit_not (x : BitVec w) {i : Nat} (h1 : 1 ≤ i) (hw : i ≤ w) :
    setBit x i (!bitAt x i) = some (x ^^^ oneBit w i) := by
  have hflip := correct_eq_flip x h1 hw
  rwa [correct, if_pos (by omega), getBit_eq_some x h1 hw] at hflip

/-- Settles O11: the written word has `b` at `i` and the bits of `x` elsewhere, so it is `x` or `x` with bit `i` flipped. -/
theorem setBitRule : Obligations.SetBitRule := by
  refine ⟨fun w x i b => ⟨fun h1 hw => ?_, setBit_eq_none x b⟩, by decide, by decide, by decide⟩
  obtain ⟨y, hy, hbits⟩ := setBit_spec x b h1 hw
  refine ⟨y, hy, ?_, ?_, fun j hj => getBit_congr (by rw [hbits, if_neg hj]), fun hb => ?_, fun hb => ?_⟩
  · exact Option.some.inj (hy.symm.trans (setBit_eq_some x b h1 hw))
  · rw [getBit_eq_some y h1 hw, hbits, if_pos rfl]
  · obtain rfl : bitAt x i = b := Option.some.inj ((getBit_eq_some x h1 hw).symm.trans hb)
    exact Option.some.inj (hy.symm.trans (setBit_same x h1 hw))
  · obtain rfl : (!bitAt x i) = b := by
      rw [Option.some.inj ((getBit_eq_some x h1 hw).symm.trans hb), Bool.not_not]
    exact Option.some.inj (hy.symm.trans (setBit_not x h1 hw))

/-! ### `compute_parity` as an XOR tree and as the parity of a masked word (R55) -/

/-- The only parity position that the check at `2^j` covers is `2^j` itself. -/
theorem isData_and_cover_two_pow (j i : Nat) :
    (!isParityPosition i && cover (2 ^ j) i) = decide (i &&& 2 ^ j ≠ 0 ∧ i ≠ 2 ^ j) := by
  rw [Bool.decide_and, ← cover, cover_two_pow]
  cases hp : isParityPosition i with
  | true =>
    obtain ⟨l, rfl⟩ := isParityPosition_iff.mp hp
    by_cases hl : l = j <;> simp [hl]
  | false =>
    have hne : i ≠ 2 ^ j := fun h => by simp [h] at hp
    simp [hne]

theorem dataParity_two_pow (x : BitVec w) (j n : Nat) :
    dataParity x (2 ^ j) n = xorOver n (fun i => decide (i &&& 2 ^ j ≠ 0 ∧ i ≠ 2 ^ j) && bitAt x i) :=
  xorOver_congr fun i _ _ => by rw [isData_and_cover_two_pow]

/-- An XOR is the parity of the number of its true terms. -/
theorem xorOver_eq_count (n : Nat) (f : Nat → Bool) :
    xorOver n f = decide (((positions n).filter f).length % 2 = 1) := by
  induction n with
  | zero => rfl
  | succ n ih =>
    rw [xorOver_succ, ih, positions_succ, List.filter_append, List.length_append]
    cases hf : f (n + 1) with
    | false => simp [hf]
    | true =>
      rw [Bool.eq_iff_iff]
      simp [hf]
      omega

/-- Terms above `m` that are all false do not count. -/
theorem xorOver_extend {m n : Nat} {f : Nat → Bool} (h : m ≤ n) (hf : ∀ i, m < i → f i = false) :
    xorOver n f = xorOver m f := by
  induction n, h using Nat.le_induction with
  | base => rfl
  | succ n hmn ih => rw [xorOver_succ, ih, hf (n + 1) (by omega), Bool.xor_false]

theorem coverMask_succ (w j n : Nat) : coverMask w j (n + 1) =
    coverMask w j n ||| (if (n + 1) &&& 2 ^ j ≠ 0 ∧ n + 1 ≠ 2 ^ j then oneBit w (n + 1) else 0#w) := by
  simp only [coverMask, positions_succ, List.foldl_append, List.foldl_cons, List.foldl_nil]
  split <;> simp

theorem bitAt_and (x y : BitVec w) (i : Nat) : bitAt (x &&& y) i = (bitAt x i && bitAt y i) := by
  by_cases h : 1 ≤ i <;> simp [bitAt, h]

theorem bitAt_or (x y : BitVec w) (i : Nat) : bitAt (x ||| y) i = (bitAt x i || bitAt y i) := by
  by_cases h : 1 ≤ i <;> simp [bitAt, h]

/-- The mask of check `j` has a 1 exactly at the positions of `1..n` that it covers, `2^j` left out (R55). -/
theorem bitAt_coverMask (j : Nat) {n : Nat} (hw : n ≤ w) (i : Nat) :
    bitAt (coverMask w j n) i = (decide (1 ≤ i ∧ i ≤ n) && decide (i &&& 2 ^ j ≠ 0 ∧ i ≠ 2 ^ j)) := by
  induction n with
  | zero =>
    have hempty : ¬(1 ≤ i ∧ i ≤ 0) := by omega
    rw [decide_eq_false hempty, Bool.false_and]
    exact bitAt_zero i
  | succ n ih =>
    rw [coverMask_succ, bitAt_or, ih (by omega)]
    rcases eq_or_ne i (n + 1) with rfl | hi
    · split_ifs with hcov <;> simp [bitAt_oneBit (Nat.le_add_left 1 n) hw, hcov]
    · have hterm : bitAt (if (n + 1) &&& 2 ^ j ≠ 0 ∧ n + 1 ≠ 2 ^ j then oneBit w (n + 1) else 0#w) i = false := by
        split_ifs <;> simp [bitAt_oneBit (Nat.le_add_left 1 n) hw, hi]
      have hrange : (1 ≤ i ∧ i ≤ n + 1) ↔ (1 ≤ i ∧ i ≤ n) := by omega
      rw [hterm, Bool.or_false, decide_eq_decide.mpr hrange]

/-- The XOR over the covered data positions is the parity of the word under the mask (R55). -/
theorem xorOver_covered_eq_popcount (x : BitVec w) (j : Nat) {n : Nat} (hw : n ≤ w) :
    xorOver n (fun i => decide (i &&& 2 ^ j ≠ 0 ∧ i ≠ 2 ^ j) && bitAt x i) =
      decide (popcount (x &&& coverMask w j n) % 2 = 1) := by
  have habove : ∀ i, n < i → bitAt (x &&& coverMask w j n) i = false := fun i hi => by
    have hout : ¬(1 ≤ i ∧ i ≤ n) := by omega
    rw [bitAt_and, bitAt_coverMask j hw, decide_eq_false hout, Bool.false_and, Bool.and_false]
  rw [popcount, ← xorOver_eq_count, xorOver_extend hw habove]
  refine xorOver_congr fun i h1 hn => ?_
  have hin : 1 ≤ i ∧ i ≤ n := ⟨h1, hn⟩
  rw [bitAt_and, bitAt_coverMask j hw, decide_eq_true hin, Bool.true_and, Bool.and_comm]

/-- Settles O13: the loop's sum over data positions is the sum over the covered positions other than `2^j`, which the mask
selects. -/
theorem computeParityIsAnXorTree : Obligations.ComputeParityIsAnXorTree := by
  intro w x j nBits _ hw
  have htree := (computeParity_eq x (2 ^ j) hw).trans (congrArg some (dataParity_two_pow x j nBits))
  exact ⟨htree, htree.trans (congrArg some (xorOver_covered_eq_popcount x j hw))⟩

end Sys2Proof.Machine

/-! ## The encoder's stages and ENCODE (41_encoder.md): O16, O17, O21, O42 -/

namespace Sys2Proof.Machine

variable {w : Nat}

/-- The parity positions of `1..n` are those of the checks `j < r` (R35). -/
theorem two_pow_le_nEncodedBits_iff {j r : Nat} : 2 ^ j ≤ nEncodedBits r ↔ j < r := by
  rw [nEncodedBits, Nat.le_sub_one_iff_lt (Nat.two_pow_pos r)]
  exact Nat.pow_lt_pow_iff_right (by decide)

/-- Legal data for `r` has no bit for a data position above `n`. -/
theorem bitAt_dataIndex_of_gt {r pos : Nat} {data : BitVec w} (h : data.toNat < 2 ^ (nEncodedBits r - r))
    (hpos : nEncodedBits r < pos) (hdata : isParityPosition pos = false) : bitAt data (pos - bitLen pos) = false := by
  have hlt := dataIndex_lt hpos hdata
  rw [bitLen_nEncodedBits] at hlt
  exact bitAt_of_toNat_lt h hlt

/-- Settles O16: the word is given bit by bit, and a larger `r` places only data bits above `k`, which are 0. -/
theorem interleaverPlacesTheData : Obligations.InterleaverPlacesTheData := by
  intro w r data (hw : nEncodedBits r ≤ w)
  obtain ⟨acc, hacc, hbits⟩ := interleave_spec data hw
  refine ⟨acc, hacc, fun pos hpos (hn : pos ≤ nEncodedBits r) => ?_, fun j _ => ?_,
    fun pos (hn : nEncodedBits r < pos) => ?_, fun r' hr (hw' : nEncodedBits r' ≤ w) hlegal => ?_⟩
  · simp [hbits, hn, (isDataPos_iff.mp hpos).2]
  · simp [hbits]
  · simp [hbits, Nat.not_le.mpr hn]
  · obtain ⟨acc', hacc', hbits'⟩ := interleave_spec data hw'
    have hmono : nEncodedBits r ≤ nEncodedBits r' := Nat.sub_le_sub_right (Nat.pow_le_pow_right (by decide) hr) 1
    have heq : acc' = acc := ext_bitAt fun i _ _ => by
      rw [hbits, hbits']
      cases hi : isParityPosition i with
      | true => simp
      | false =>
        by_cases hn : i ≤ nEncodedBits r
        · simp [hn, hn.trans hmono]
        · simp [bitAt_dataIndex_of_gt hlegal (Nat.not_le.mp hn) hi]
    rw [← heq]
    exact hacc'

/-- Settles O17: the walk keeps the data positions, so each inserted parity is that of the result too, and completes its check
to an even one. -/
theorem parityInsertionMakesChecksEven : Obligations.ParityInsertionMakesChecksEven := by
  intro w r acc (hw : nEncodedBits r ≤ w)
  obtain ⟨c, hc, hbits⟩ := insertParities_spec acc hw
  refine ⟨c, hc, fun pos hpos => ?_, fun j hj => ?_⟩
  · refine (hbits pos).trans (if_neg fun ⟨hparity, hn⟩ => ?_)
    obtain ⟨j, rfl⟩ := isParityPosition_iff.mp hparity
    exact hpos j (two_pow_le_nEncodedBits_iff.mp hn) rfl
  · have hjn : 2 ^ j ≤ nEncodedBits r := two_pow_le_nEncodedBits_iff.mpr hj
    have hinserted : bitAt c (2 ^ j) = dataParity acc (2 ^ j) (nEncodedBits r) := by simp [hbits, hjn]
    have hparity : bitAt c (2 ^ j) = dataParity c (2 ^ j) (nEncodedBits r) :=
      hinserted.trans (dataParity_congr _ fun i _ hi => by simp [hbits, hi])
    refine ⟨?_, hparity.trans (dataParity_two_pow c j _), (xorOver_check (nEncodedBits r) j c).trans ?_⟩
    · rw [hinserted]
      exact computeParity_eq acc (2 ^ j) hw
    · rw [testBit_indexXor_eq_check c hjn, hparity, Bool.xor_self]

/-! ### ENCODE in every state -/

theorem encodeFault_eq_none {r : BitVec Config.RW} {data : Data Config.W} (hr : LegalR r) (hdata : LegalData r data) :
    encodeFault r.toNat data = none := by
  rw [encodeFault_W, if_neg (Nat.not_lt.mpr hr), if_neg (Nat.not_le.mpr hdata)]

/-- Settles O21: legal operands pass the precondition stage, the datapath answers the codeword, and `drive` puts it on the
response port. -/
theorem encodeAnswersTheCodeword : Obligations.EncodeAnswersTheCodeword := by
  intro r data s hr hdata
  have hfault := encodeFault_eq_none hr hdata
  obtain ⟨c, hc, hcode⟩ := encodeWord_isCodewordOf data (nEncodedBits_le_of_encodeFault hfault)
  exact ⟨c.bits, hcode, execEncode_of_legal hfault hc s⟩

/-! ### The tables for small `r` (R67, R79) -/

/-- The even checks of a codeword give its parity bits from its data bits (R64). -/
theorem dataParity_eq_of_isCodewordOf {r j : Nat} {data c : BitVec w} (h : IsCodewordOf r data c) (hj : j < r) :
    dataParity c (2 ^ j) (nEncodedBits r) = bitAt c (2 ^ j) := by
  obtain ⟨-, hchecks, -⟩ := h
  have heven : (indexXor (nEncodedBits r) c).testBit j = false := (xorOver_check (nEncodedBits r) j c).symm.trans (hchecks j hj)
  simpa [testBit_indexXor_eq_check c (two_pow_le_nEncodedBits_iff.mpr hj)] using heven

/-- Data has at most one codeword. -/
theorem isCodewordOf_unique {r : Nat} {data c c' : BitVec w} (h : IsCodewordOf r data c) (h' : IsCodewordOf r data c') :
    c = c' := by
  have ⟨hplaced, _, hlt⟩ := h
  have ⟨hplaced', _, hlt'⟩ := h'
  have hdata : ∀ i, i ≤ nEncodedBits r → isParityPosition i = false → bitAt c i = bitAt c' i := fun i hn hi => by
    rcases Nat.eq_zero_or_pos i with rfl | h1
    · rw [bitAt_zero_index, bitAt_zero_index]
    · have hpos := isDataPos_iff.mpr ⟨h1, hi⟩
      exact (hplaced i hpos hn).trans (hplaced' i hpos hn).symm
  refine ext_bitAt fun i _ _ => ?_
  by_cases hn : i ≤ nEncodedBits r
  · cases hi : isParityPosition i with
    | true =>
      obtain ⟨j, rfl⟩ := isParityPosition_iff.mp hi
      have hj := two_pow_le_nEncodedBits_iff.mp hn
      rw [← dataParity_eq_of_isCodewordOf h hj, ← dataParity_eq_of_isCodewordOf h' hj, dataParity_congr _ hdata]
    | false => exact hdata i hn hi
  · rw [bitAt_of_toNat_lt hlt (Nat.not_le.mp hn), bitAt_of_toNat_lt hlt' (Nat.not_le.mp hn)]

/-- ENCODE answers whatever word meets the codeword's equations. -/
theorem exec_encode_of_isCodewordOf {r : BitVec Config.RW} {data : Data Config.W} {c : Word} (hr : LegalR r)
    (hdata : LegalData r data) (hc : IsCodewordOf r.toNat data.bits c) (s : State) :
    ∃ t, exec (.encode r data) s = .next t ∧ t.rspFault = false ∧ t.rspWord = c := by
  obtain ⟨c', hc', hexec⟩ := encodeAnswersTheCodeword r data s hr hdata
  exact ⟨_, hexec, rfl, isCodewordOf_unique hc' hc⟩

/-- DECODE answers what its two stages give. -/
theorem exec_decode_of_stages {r : BitVec Config.RW} {x : Encoded Config.W} {out : Decoded Config.W} {hasError : Bool}
    (h : decodeFault r.toNat x = none ∧ decodeWord r.toNat x = some (out, hasError)) (s : State) :
    ∃ t, exec (.decode r x) s = .next t ∧ t.rspFault = false ∧ t.rspWord = out.bits ∧ t.rspHasError = hasError :=
  ⟨_, execDecode_of_legal h.1 h.2 s, rfl, rfl, rfl⟩

/-- The indices 1, 2 and 3 of the bits of 7 cancel. -/
theorem indexXor_seven {n : Nat} (h3 : 3 ≤ n) (hw : n ≤ 64) : indexXor n 7#64 = 0 := by
  have hbits : 7#64 = oneBit 64 1 ^^^ oneBit 64 2 ^^^ oneBit 64 3 := by decide
  rw [hbits, indexXor_xor, indexXor_xor, indexXor_oneBit (by decide) (by omega) hw,
    indexXor_oneBit (by decide) (by omega) hw, indexXor_oneBit (by decide) h3 hw]
  decide

/-- The codeword of the data 1 is 7: position 3 holds the data bit, 1 and 2 its parities (R67). -/
theorem isCodewordOf_one {r : Nat} (h2 : 2 ≤ r) (hw : nEncodedBits r ≤ 64) : IsCodewordOf r 1#64 7#64 := by
  have h3 : 3 ≤ nEncodedBits r := Nat.sub_le_sub_right (Nat.pow_le_pow_right (by decide : 0 < 2) h2) 1
  refine ⟨fun pos hpos _ => ?_, fun j _ => ?_, ?_⟩
  · obtain ⟨h1, hdata⟩ := isDataPos_iff.mp hpos
    rcases Nat.lt_or_ge 3 pos with hgt | hle
    · have hidx : 1 < pos - bitLen pos := dataIndex_lt hgt hdata
      rw [bitAt_of_toNat_lt (k := 3) (by decide) hgt, bitAt_of_toNat_lt (k := 1) (by decide) hidx]
    · obtain rfl : pos = 3 := by
        interval_cases pos
        · exact absurd hdata (by decide)
        · exact absurd hdata (by decide)
        · rfl
      decide
  · exact (xorOver_check (nEncodedBits r) j _).trans (by rw [indexXor_seven h3 hw, Nat.zero_testBit])
  · exact Nat.lt_of_lt_of_le (by decide : (7#64).toNat < 2 ^ 3) (Nat.pow_le_pow_right (by decide) h3)

/-- From `r = 2` on a codeword has a data bit. -/
theorem lt_nEncodedBits {r : Nat} (h2 : 2 ≤ r) : r < nEncodedBits r := by
  obtain ⟨m, rfl⟩ : ∃ m, r = m + 1 := ⟨r - 1, by omega⟩
  have hm : m < 2 ^ m := Nat.lt_two_pow_self
  rw [nEncodedBits, Nat.pow_succ]
  omega

/-- ENCODE of the data 1 (R67). -/
theorem exec_encode_one {r : BitVec Config.RW} (hr : r.toNat ≤ 6) (h2 : 2 ≤ r.toNat) (s : State) :
    ∃ t, exec (.encode r ⟨1⟩) s = .next t ∧ t.rspFault = false ∧ t.rspWord = 7 := by
  have hdata : LegalData r ⟨1⟩ := Nat.one_lt_two_pow (Nat.sub_ne_zero_of_lt (lt_nEncodedBits h2))
  have hw : nEncodedBits r.toNat ≤ 64 := nEncodedBits_le_of_encodeFault (encodeFault_eq_none hr hdata)
  exact exec_encode_of_isCodewordOf hr hdata (isCodewordOf_one h2 hw) s

/-- ENCODE of the data 0 (R67). -/
theorem exec_encode_zero {r : BitVec Config.RW} (hr : r.toNat ≤ 6) (s : State) :
    ∃ t, exec (.encode r ⟨0⟩) s = .next t ∧ t.rspFault = false ∧ t.rspWord = 0 :=
  exec_encode_of_isCodewordOf hr (Nat.two_pow_pos _) (isCodewordOf_zero 64 r.toNat) s

/-- Settles O42: ENCODE's rows have the data 0 or 1, whose codewords are known at every `r`; DECODE's eleven rows are evaluated
on its two stages, which read no state. -/
theorem smallRTables : Obligations.SmallRTables := by
  refine ⟨fun s => ?_, fun s p hp => exec_decode_of_stages (out := ⟨BitVec.ofNat 64 p.2.2.1⟩) ?_ s,
    fun r s hr h2 => exec_encode_one hr h2 s⟩
  · simp only [List.forall_mem_cons]
    exact ⟨exec_encode_zero (r := 0) (by decide) s, exec_encode_zero (r := 1) (by decide) s,
      exec_encode_zero (r := 2) (by decide) s, exec_encode_one (r := 2) (by decide) (by decide) s, List.forall_mem_nil _⟩
  · revert p
    decide

end Sys2Proof.Machine

/-! ## The decoder's stages and DECODE (42_decoder.md): O18, O19, O37, O20, O39, O22 -/

namespace Sys2Proof.Machine

variable {w : Nat}

/-- The syndrome has no bit from weight `2^r` up (R72). -/
theorem testBit_indexXor_of_ge {r j : Nat} (x : BitVec w) (hj : r ≤ j) :
    (indexXor (nEncodedBits r) x).testBit j = false := by
  have hgt : nEncodedBits r < 2 ^ j := Nat.not_le.mp fun h => Nat.not_lt.mpr hj (two_pow_le_nEncodedBits_iff.mp h)
  exact Nat.testBit_lt_two_pow ((indexXor_nEncodedBits_le r x).trans_lt hgt)

/-- Settles O18: the walk computes the XOR of the set indices, whose bit `j` is the check at `2^j`. -/
theorem syndromeIsTheXorOfIndices : Obligations.SyndromeIsTheXorOfIndices := by
  intro w r x (hw : nEncodedBits r ≤ w)
  refine ⟨_, syndrome_eq x hw, rfl, indexXor_nEncodedBits_le r x,
    fun j hj => ⟨⟨_, computeParity_eq x (2 ^ j) hw, ?_⟩, ?_⟩, fun j hj => testBit_indexXor_of_ge x hj⟩
  · exact testBit_indexXor_eq_check x (two_pow_le_nEncodedBits_iff.mpr hj)
  · exact (xorOver_check (nEncodedBits r) j x).symm

/-- Flipping a bit XORs its index into the syndrome (R89). -/
theorem indexXor_flip {n i : Nat} (x : BitVec w) (h1 : 1 ≤ i) (hn : i ≤ n) (hw : n ≤ w) :
    indexXor n (x ^^^ oneBit w i) = indexXor n x ^^^ i := by
  rw [indexXor_xor, indexXor_oneBit h1 hn hw]

/-- Settles O37: the XOR of the set indices is linear, and a single bit contributes its index. -/
theorem syndromeIsLinear : Obligations.SyndromeIsLinear := by
  intro w r x y (hw : nEncodedBits r ≤ w)
  refine ⟨_, _, syndrome_eq x hw, syndrome_eq y hw, ?_, fun i h1 hn => ?_⟩
  · rw [← indexXor_xor]
    exact syndrome_eq (x ^^^ y) hw
  · rw [← indexXor_flip x h1 hn hw]
    exact syndrome_eq (x ^^^ oneBit w i) hw

/-- The corrected word passes every check: the flip at the syndrome XORs the syndrome into itself (R74). -/
theorem indexXor_of_correct {r : Nat} {x c : BitVec w} (hw : nEncodedBits r ≤ w)
    (hc : correct (indexXor (nEncodedBits r) x) x = some c) : indexXor (nEncodedBits r) c = 0 := by
  have hle := indexXor_nEncodedBits_le r x
  rcases Nat.eq_zero_or_pos (indexXor (nEncodedBits r) x) with h0 | hpos
  · rw [h0, correct_zero, Option.some.injEq] at hc
    rw [← hc, h0]
  · rw [correct_eq_flip x hpos (hle.trans hw), Option.some.injEq] at hc
    rw [← hc, indexXor_flip x hpos hle hw, Nat.xor_self]

/-- Settles O19: the corrector flips the bit at the syndrome and none for 0, which makes every check even, and the extractor
answers on its word. -/
theorem correctionFlipsTheLocatedBit : Obligations.CorrectionFlipsTheLocatedBit := by
  intro w r x syn (hw : nEncodedBits r ≤ w) hsyn
  obtain rfl : indexXor (nEncodedBits r) x = syn := Option.some.inj ((syndrome_eq x hw).symm.trans hsyn)
  have hle := (indexXor_nEncodedBits_le r x).trans hw
  obtain ⟨c, hc, hbits⟩ := correct_spec x hle
  obtain ⟨out, hout, -⟩ := extract_spec c hw
  refine ⟨c, hc, fun hne => ?_, fun h0 => ?_, fun i h1 _ => ?_, ?_, ⟨out⟩, decodeWord_eq_of_stages hw hc hout⟩
  · exact Option.some.inj (hc.symm.trans (correct_eq_flip x (Nat.pos_of_ne_zero hne) hle))
  · rw [h0, correct_zero] at hc
    exact (Option.some.inj hc).symm
  · rw [hbits i h1, decide_eq_decide.mpr eq_comm]
  · exact (syndrome_eq c hw).trans (congrArg some (indexXor_of_correct hw hc))

/-! ### The extractor reads the data positions and nothing else (R75) -/

/-- Words that agree at the data positions of `1..n` are extracted to the same data. -/
theorem extract_congr {c c' : BitVec w} {n : Nat} (h : n ≤ w)
    (hcc : ∀ i, i ≤ n → isParityPosition i = false → bitAt c i = bitAt c' i) : extract n c = extract n c' := by
  obtain ⟨out, hout, hread, habove⟩ := extract_spec c' h
  rw [hout]
  exact extract_eq_of_dataBits h (fun i hn hi => (hcc i hn hi).trans (hread i hn hi).symm) (toNat_lt_of_bitAt habove)

/-- A longer walk reads nothing more from a word with no bit above `n`. -/
theorem extract_extend {c : BitVec w} {n n' : Nat} (hn : n ≤ n') (hw : n' ≤ w) (hc : c.toNat < 2 ^ n) :
    extract n' c = extract n c := by
  obtain ⟨out, hout, hread, habove⟩ := extract_spec c (hn.trans hw)
  rw [hout]
  refine extract_eq_of_dataBits hw (fun i _ hi => ?_) (toNat_lt_of_bitAt fun d hd => ?_)
  · by_cases hin : i ≤ n
    · exact (hread i hin hi).symm
    · have hgt := Nat.not_le.mp hin
      rw [bitAt_of_toNat_lt hc hgt, habove _ (dataIndex_lt hgt hi)]
  · exact habove d ((dataIndex_mono hn).trans_lt hd)

/-- Settles O20: each data bit index up to `k` has its data position, and a larger `r` walks on over zeros. -/
theorem extractorReadsTheDataPositions : Obligations.ExtractorReadsTheDataPositions := by
  intro w r c (hw : nEncodedBits r ≤ w)
  obtain ⟨out, hout, hread, habove⟩ := extract_spec c hw
  rw [bitLen_nEncodedBits] at habove
  refine ⟨out, hout, fun pos hpos hn => hread pos hn (isDataPos_iff.mp hpos).2, fun d h1 hd => ?_, habove,
    fun r' hr hw' hc => ?_⟩
  · obtain ⟨pos, ⟨hpos, hn, rfl⟩, -⟩ := dataPositionsInOrder.2 r d h1 hd
    exact ⟨pos, hpos, hn, rfl, hread pos hn (isDataPos_iff.mp hpos).2⟩
  · have hmono : nEncodedBits r ≤ nEncodedBits r' := Nat.sub_le_sub_right (Nat.pow_le_pow_right (by decide) hr) 1
    exact (extract_extend hmono hw' hc).trans hout

/-- Settles O39: the flipped position is no data position. -/
theorem parityPositionErrorsChangeNoData : Obligations.ParityPositionErrorsChangeNoData := by
  intro w r j c (hw : nEncodedBits r ≤ w) hj
  obtain ⟨out, hout, -⟩ := extract_spec c hw
  refine ⟨out, hout, (extract_congr hw fun i _ hi => ?_).trans hout⟩
  have hne : i ≠ 2 ^ j := fun h => by simp [h] at hi
  rw [bitAt_xor, bitAt_oneBit Nat.one_le_two_pow ((two_pow_le_nEncodedBits_iff.mpr hj).trans hw), decide_eq_false hne,
    Bool.xor_false]

/-! ### DECODE in every state -/

theorem decodeFault_eq_none {r : BitVec Config.RW} {encoded : Encoded Config.W} (hr : LegalR r)
    (hx : LegalEncoded r encoded) : decodeFault r.toNat encoded = none := by
  rw [decodeFault_W, if_neg (Nat.not_lt.mpr hr), if_neg (Nat.not_le.mpr hx)]

/-- Settles O22: a legal operand passes the precondition stage, the datapath answers its data and flag, and `drive` puts them
on the response port. -/
theorem decodeAnswersTheData : Obligations.DecodeAnswersTheData := by
  intro r encoded s hr hx
  have hfault := decodeFault_eq_none hr hx
  obtain ⟨out, hout, hdecoded⟩ := decodeWord_isDecodedOf encoded (nEncodedBits_le_of_decodeFault hfault)
  exact ⟨out.bits, hdecoded, execDecode_of_legal hfault hout s⟩

end Sys2Proof.Machine

/-! ## Two-bit errors (43_codec_laws.md, R91): O35 -/

namespace Sys2Proof.Machine

variable {w : Nat}

theorem oneBit_toNat_lt {n i : Nat} (h1 : 1 ≤ i) (hn : i ≤ n) (hw : n ≤ w) : (oneBit w i).toNat < 2 ^ n :=
  toNat_lt_of_bitAt fun j hj => by rw [bitAt_oneBit h1 (hn.trans hw), decide_eq_false (by omega)]

/-- A flip inside `1..n` keeps a word below `2^n`. -/
theorem flip_toNat_lt {x : BitVec w} {n i : Nat} (hx : x.toNat < 2 ^ n) (h1 : 1 ≤ i) (hn : i ≤ n) (hw : n ≤ w) :
    (x ^^^ oneBit w i).toNat < 2 ^ n := by
  rw [BitVec.toNat_xor]
  exact Nat.xor_lt_two_pow hx (oneBit_toNat_lt h1 hn hw)

/-- A codeword has syndrome 0. -/
theorem indexXor_of_isCodewordOf {r : Nat} {data c : BitVec w} (h : IsCodewordOf r data c) :
    indexXor (nEncodedBits r) c = 0 := by
  obtain ⟨-, hchecks, -⟩ := h
  refine Nat.eq_of_testBit_eq fun j => ?_
  rw [Nat.zero_testBit]
  by_cases hj : j < r
  · exact (xorOver_check (nEncodedBits r) j c).symm.trans (hchecks j hj)
  · exact testBit_indexXor_of_ge c (Nat.not_lt.mp hj)

/-- A codeword with two bits flipped has the XOR of their indices as its syndrome (R91). -/
theorem indexXor_two_flips {r a b : Nat} {data c : BitVec w} (h : IsCodewordOf r data c) (ha1 : 1 ≤ a)
    (ha : a ≤ nEncodedBits r) (hb1 : 1 ≤ b) (hb : b ≤ nEncodedBits r) (hw : nEncodedBits r ≤ w) :
    indexXor (nEncodedBits r) (c ^^^ oneBit w a ^^^ oneBit w b) = a ^^^ b := by
  rw [indexXor_flip _ hb1 hb hw, indexXor_flip _ ha1 ha hw, indexXor_of_isCodewordOf h, Nat.zero_xor]

/-- A word with a non-zero syndrome decodes to the data whose codeword is that word with the located bit flipped (R74). -/
theorem isCodewordOf_flip_of_isDecodedOf {r : Nat} {x out : BitVec w} (hw : nEncodedBits r ≤ w)
    (hx : x.toNat < 2 ^ nEncodedBits r) (hne : indexXor (nEncodedBits r) x ≠ 0) (h : IsDecodedOf r x out) :
    IsCodewordOf r out (x ^^^ oneBit w (indexXor (nEncodedBits r) x)) := by
  obtain ⟨hread, -⟩ := h
  have hpos := Nat.pos_of_ne_zero hne
  have hle := indexXor_nEncodedBits_le r x
  refine ⟨fun pos hdata hn => ?_, fun j _ => ?_, flip_toNat_lt hx hpos hle hw⟩
  · rw [bitAt_xor, bitAt_oneBit hpos (hle.trans hw)]
    exact (hread pos hdata hn).symm
  · refine (xorOver_check (nEncodedBits r) j _).trans ?_
    rw [indexXor_of_correct hw (correct_eq_flip x hpos (hle.trans hw)), Nat.zero_testBit]

/-- Flipping `a`, `b` and `a XOR b` changes a word at `a`, as neither other index is `a`. -/
theorem three_flips_ne (c : BitVec w) {a b : Nat} (ha1 : 1 ≤ a) (ha : a ≤ w) (hb1 : 1 ≤ b) (hb : b ≤ w) (hab : a ≠ b)
    (hs : a ^^^ b ≤ w) : c ^^^ oneBit w a ^^^ oneBit w b ^^^ oneBit w (a ^^^ b) ≠ c := by
  intro h
  have hs1 : 1 ≤ a ^^^ b := Nat.pos_of_ne_zero (Nat.xor_ne_zero_iff.mpr hab)
  have hsa : a ≠ a ^^^ b := fun h => Nat.ne_of_gt hb1 (Nat.xor_right_inj.mp (h.symm.trans (Nat.xor_zero a).symm))
  have hbit := congrArg (bitAt · a) h
  simp [bitAt_oneBit, ha1, ha, hb1, hb, hs1, hs, hab, hsa] at hbit

/-- Settles O35: the syndrome is `a XOR b`, so the corrector makes a third flip, which reaches the codeword of the answered data;
it differs from the codeword sent, hence so does the data. -/
theorem twoBitErrorsAreMiscorrected : Obligations.TwoBitErrorsAreMiscorrected := by
  intro r data a b s s' s'' hr hdata ha1 (ha : a ≤ nEncodedBits r.toNat) hb1 (hb : b ≤ nEncodedBits r.toNat) hab
  have hw : nEncodedBits r.toNat ≤ 64 := nEncodedBits_le_of_encodeFault (encodeFault_eq_none hr hdata)
  obtain ⟨c, hc, hencode⟩ := encodeAnswersTheCodeword r data s hr hdata
  have ⟨_, _, hclt⟩ := hc
  have hx : (c ^^^ oneBit 64 a ^^^ oneBit 64 b).toNat < 2 ^ nEncodedBits r.toNat :=
    flip_toNat_lt (flip_toNat_lt hclt ha1 ha hw) hb1 hb hw
  have hsyn := indexXor_two_flips hc ha1 ha hb1 hb hw
  have hne : indexXor (nEncodedBits r.toNat) (c ^^^ oneBit 64 a ^^^ oneBit 64 b) ≠ 0 := by
    rw [hsyn]
    exact Nat.xor_ne_zero_iff.mpr hab
  obtain ⟨out, hout, hdecode⟩ := decodeAnswersTheData r ⟨_⟩ s' hr hx
  have hcode := isCodewordOf_flip_of_isDecodedOf hw hx hne hout
  have hs := (indexXor_nEncodedBits_le r.toNat (c ^^^ oneBit 64 a ^^^ oneBit 64 b)).trans hw
  rw [hsyn] at hcode hs
  obtain ⟨t'', hreencode, hfault, hword⟩ := exec_encode_of_isCodewordOf (data := ⟨out⟩) hr hout.2 hcode s''
  refine ⟨_, _, t'', hencode, rfl, hdecode, rfl, decide_eq_true hne, fun heq => ?_, hreencode, hfault, hword⟩
  obtain rfl : out = data.bits := heq
  exact three_flips_ne c ha1 (ha.trans hw) hb1 (hb.trans hw) hab hs (isCodewordOf_unique hcode hc)

end Sys2Proof.Machine

/-! ## The laws of the codec on the two commands (43_codec_laws.md): O31, O32, O34, O36, O38, O41

A codeword is a word below `2^n` with the data at its data positions and syndrome 0; the corrector takes every operand of DECODE
to the codeword of the data that DECODE answers. -/

namespace Sys2Proof.Machine

variable {w : Nat}

/-! ### Codewords by their syndrome -/

/-- Every check is even when the syndrome is 0 (R64, R72). -/
theorem isCodewordOf_of_indexXor {r : Nat} {data c : BitVec w}
    (hplaced : ∀ pos, IsDataPos pos → pos ≤ nEncodedBits r → bitAt c pos = bitAt data (pos - bitLen pos))
    (hsyn : indexXor (nEncodedBits r) c = 0) (hlt : c.toNat < 2 ^ nEncodedBits r) : IsCodewordOf r data c :=
  ⟨hplaced, fun j _ => (xorOver_check (nEncodedBits r) j c).trans (by rw [hsyn, Nat.zero_testBit]), hlt⟩

/-- The extractor reads the data from its codeword (R75). -/
theorem extract_of_isCodewordOf {r : Nat} {data c : BitVec w} (hw : nEncodedBits r ≤ w) (h : IsCodewordOf r data c)
    (hdata : data.toNat < 2 ^ (nEncodedBits r - r)) : extract (nEncodedBits r) c = some data := by
  obtain ⟨hplaced, -, -⟩ := h
  refine extract_eq_of_dataBits hw (fun i hn hi => ?_) (by rwa [bitLen_nEncodedBits])
  rcases Nat.eq_zero_or_pos i with rfl | h1
  · rw [bitLen_zero, bitAt_zero_index, bitAt_zero_index]
  · exact hplaced i (isDataPos_iff.mpr ⟨h1, hi⟩) hn

/-- A codeword has one legal data. -/
theorem data_eq_of_isCodewordOf {r : Nat} {data data' c : BitVec w} (hw : nEncodedBits r ≤ w)
    (h : IsCodewordOf r data c) (h' : IsCodewordOf r data' c) (hdata : data.toNat < 2 ^ (nEncodedBits r - r))
    (hdata' : data'.toNat < 2 ^ (nEncodedBits r - r)) : data = data' :=
  Option.some.inj ((extract_of_isCodewordOf hw h hdata).symm.trans (extract_of_isCodewordOf hw h' hdata'))

/-! ### The corrector and the codewords -/

/-- The corrector keeps a codeword. -/
theorem correct_of_isCodewordOf {r : Nat} {data x : BitVec w} (h : IsCodewordOf r data x) :
    correct (indexXor (nEncodedBits r) x) x = some x := by
  rw [indexXor_of_isCodewordOf h, correct_zero]

/-- A word that is one flip at `i` away from a codeword has the syndrome `i`. -/
theorem indexXor_eq_of_flip_isCodewordOf {r i : Nat} {data x : BitVec w} (hw : nEncodedBits r ≤ w)
    (h : IsCodewordOf r data (x ^^^ oneBit w i)) (h1 : 1 ≤ i) (hn : i ≤ nEncodedBits r) :
    indexXor (nEncodedBits r) x = i := by
  have hsyn := indexXor_of_isCodewordOf h
  rw [indexXor_flip x h1 hn hw] at hsyn
  exact Nat.xor_eq_zero_iff.mp hsyn

/-- The corrector takes a word to the codeword that is one flip away. -/
theorem correct_of_flip_isCodewordOf {r i : Nat} {data x : BitVec w} (hw : nEncodedBits r ≤ w)
    (h : IsCodewordOf r data (x ^^^ oneBit w i)) (h1 : 1 ≤ i) (hn : i ≤ nEncodedBits r) :
    correct (indexXor (nEncodedBits r) x) x = some (x ^^^ oneBit w i) := by
  rw [indexXor_eq_of_flip_isCodewordOf hw h h1 hn, correct_eq_flip x h1 (hn.trans hw)]

/-- The corrected word is the codeword of the data that is decoded (R87). -/
theorem isCodewordOf_of_isDecodedOf {r : Nat} {x c out : BitVec w} (hw : nEncodedBits r ≤ w)
    (hx : x.toNat < 2 ^ nEncodedBits r) (hc : correct (indexXor (nEncodedBits r) x) x = some c)
    (h : IsDecodedOf r x out) : IsCodewordOf r out c := by
  obtain ⟨hread, -⟩ := h
  have hle := indexXor_nEncodedBits_le r x
  obtain ⟨c', hc', hbits⟩ := correct_spec x (hle.trans hw)
  obtain rfl : c' = c := Option.some.inj (hc'.symm.trans hc)
  refine isCodewordOf_of_indexXor (fun pos hpos hn => ?_) (indexXor_of_correct hw hc) (toNat_lt_of_bitAt fun i hi => ?_)
  · exact (hbits pos hpos.1).trans (hread pos hpos hn).symm
  · rw [hbits i (by omega), bitAt_of_toNat_lt hx hi, decide_eq_false (by omega), Bool.xor_false]

theorem nEncodedBits_le_64 {r : BitVec Config.RW} (hr : LegalR r) : nEncodedBits r.toNat ≤ 64 :=
  Nat.not_lt.mp fun h => Nat.not_lt.mpr hr ((codeword_exceeds_iff r.toNat).mp h)

/-! ### Round trip and single-bit errors (R85, R86) -/

/-- ENCODE's datapath on legal data answers a legal operand of DECODE. -/
theorem legalEncoded_of_encodeWord {r : BitVec Config.RW} {data : Data Config.W} {c : Encoded Config.W} (hr : LegalR r)
    (hc : encodeWord r.toNat data = some c) : LegalEncoded r c := by
  obtain ⟨c', hc', -, -, hlt⟩ := encodeWord_isCodewordOf data (nEncodedBits_le_64 hr)
  obtain rfl : c' = c := Option.some.inj (hc'.symm.trans hc)
  exact hlt

/-- Settles O31: at `W = 64` the datapaths decode what they encode (O33), and a codeword passes DECODE's precondition stage. -/
theorem roundTrip : Obligations.RoundTrip := by
  intro r data s s' hr hdata
  obtain ⟨c, hc, hdecode, -⟩ := codecCorrectsAtEveryWidth 64 r.toNat data (nEncodedBits_le_64 hr) hdata
  have hlegal := legalEncoded_of_encodeWord hr hc
  obtain ⟨t', ht'⟩ := exec_decode_of_stages ⟨decodeFault_eq_none hr hlegal, hdecode⟩ s'
  exact ⟨_, t', execEncode_of_legal (encodeFault_eq_none hr hdata) hc s, rfl, ht'⟩

/-- Settles O32: as O31, and a flip inside `1..n` keeps the operand legal. -/
theorem singleBitErrorsAreCorrected : Obligations.SingleBitErrorsAreCorrected := by
  intro r data i s s' hr hdata h1 hn
  have hw := nEncodedBits_le_64 hr
  obtain ⟨c, hc, -, hdecode⟩ := codecCorrectsAtEveryWidth 64 r.toNat data hw hdata
  have hlegal : LegalEncoded r ⟨c.bits ^^^ oneBit 64 i⟩ := flip_toNat_lt (legalEncoded_of_encodeWord hr hc) h1 hn hw
  obtain ⟨t', ht'⟩ := exec_decode_of_stages ⟨decodeFault_eq_none hr hlegal, hdecode i h1 hn⟩ s'
  exact ⟨_, t', execEncode_of_legal (encodeFault_eq_none hr hdata) hc s, rfl, ht'⟩

/-! ### The nearest codeword (R87, R93, R94) -/

/-- The legal data whose codeword the corrector reaches is what the word decodes to. -/
theorem eq_of_correct_of_isDecodedOf {r : Nat} {x c out data : BitVec w} (hw : nEncodedBits r ≤ w)
    (hx : x.toNat < 2 ^ nEncodedBits r) (hout : IsDecodedOf r x out)
    (hc : correct (indexXor (nEncodedBits r) x) x = some c) (hcode : IsCodewordOf r data c)
    (hdata : data.toNat < 2 ^ (nEncodedBits r - r)) : data = out :=
  data_eq_of_isCodewordOf hw hcode (isCodewordOf_of_isDecodedOf hw hx hc hout) hdata hout.2

/-- A flip above `n` reaches no codeword. -/
theorem ne_flip_of_isCodewordOf {r i : Nat} {data c x : BitVec w} (hx : x.toNat < 2 ^ nEncodedBits r)
    (hcode : IsCodewordOf r data c) (hn : nEncodedBits r < i) (hi : i ≤ w) : c ≠ x ^^^ oneBit w i := by
  intro h
  obtain ⟨-, -, hlt⟩ := hcode
  have hbit := congrArg (bitAt · i) h
  simp [bitAt_oneBit (by omega) hi, bitAt_of_toNat_lt hlt hn, bitAt_of_toNat_lt hx hn] at hbit

/-- Settles O34: the corrector's word is the codeword of the answered data; it is the operand when the syndrome is 0, and
otherwise the operand with the bit at the syndrome flipped. Any codeword within one bit of the operand is the corrector's word,
so its data is the answered data. -/
theorem encodeAfterDecodeIsTheNearestCodeword : Obligations.EncodeAfterDecodeIsTheNearestCodeword := by
  intro r x s s' hr hx
  have hw := nEncodedBits_le_64 hr
  have hle := indexXor_nEncodedBits_le r.toNat x.bits
  obtain ⟨out, hout, hdecode⟩ := decodeAnswersTheData r x s hr hx
  obtain ⟨c, hc⟩ := correct_indexXor_isSome r.toNat x.bits hw
  have hcode := isCodewordOf_of_isDecodedOf hw hx hc hout
  obtain ⟨t', hencode, hfault, rfl⟩ := exec_encode_of_isCodewordOf (data := ⟨out⟩) hr hout.2 hcode s'
  refine ⟨_, t', hdecode, rfl, hout.2, hencode, hfault, fun hflag => ?_, fun hflag => ?_, fun other hother => ?_⟩
  · have hsyn : indexXor (nEncodedBits r.toNat) x.bits = 0 := not_not.mp (of_decide_eq_false hflag)
    rw [hsyn, correct_zero] at hc
    exact (Option.some.inj hc).symm
  · have hpos : 1 ≤ indexXor (nEncodedBits r.toNat) x.bits := Nat.pos_of_ne_zero (of_decide_eq_true hflag)
    exact ⟨hpos, hle, Option.some.inj (hc.symm.trans (correct_eq_flip x.bits hpos (hle.trans hw)))⟩
  · obtain ⟨cu, hcu, hexec⟩ := encodeAnswersTheCodeword r other s' hr hother
    refine ⟨_, hexec, rfl, ?_, fun hne => ⟨?_, fun i h1 hi => ?_⟩⟩
    · rintro hflag rfl
      exact of_decide_eq_true hflag (indexXor_of_isCodewordOf hcu)
    · rintro rfl
      exact hne (eq_of_correct_of_isDecodedOf hw hx hout (correct_of_isCodewordOf hcu) hcu hother)
    · rcases Nat.lt_or_ge (nEncodedBits r.toNat) i with hgt | hn
      · exact ne_flip_of_isCodewordOf hx hcu hgt hi
      · rintro rfl
        exact hne (eq_of_correct_of_isDecodedOf hw hx hout (correct_of_flip_isCodewordOf hw hcu h1 hn) hcu hother)

/-! ### Any pattern of flips (R92) -/

/-- Settles O36: a codeword has syndrome 0, so the operand has the syndrome of the flips alone; when it is 0 the corrector keeps
the operand, which is then the codeword of the answered data. -/
theorem flagIsZeroIffIndicesCancel : Obligations.FlagIsZeroIffIndicesCancel := by
  intro r data flips s s' s'' hr hdata hflips
  have hw := nEncodedBits_le_64 hr
  obtain ⟨c, hc, hencode⟩ := encodeAnswersTheCodeword r data s hr hdata
  have ⟨_, _, hlt⟩ := hc
  have hx : (c ^^^ flips).toNat < 2 ^ nEncodedBits r.toNat := by
    rw [BitVec.toNat_xor]
    exact Nat.xor_lt_two_pow hlt hflips
  have hsyn : indexXor (nEncodedBits r.toNat) (c ^^^ flips) = indexXor (nEncodedBits r.toNat) flips := by
    rw [indexXor_xor, indexXor_of_isCodewordOf hc, Nat.zero_xor]
  obtain ⟨out, hout, hdecode⟩ := decodeAnswersTheData r ⟨c ^^^ flips⟩ s' hr hx
  obtain ⟨c'', hc'', hreencode⟩ := encodeAnswersTheCodeword r ⟨out⟩ s'' hr hout.2
  have hflag : decide (indexXor (nEncodedBits r.toNat) (c ^^^ flips) ≠ 0) = false ↔
      indexXor (nEncodedBits r.toNat) flips = 0 := by rw [hsyn, decide_eq_false_iff_not, not_not]
  refine ⟨_, _, _, hencode, rfl, hdecode, rfl, hflag, hreencode, rfl, fun h => ?_⟩
  have hkept : correct (indexXor (nEncodedBits r.toNat) (c ^^^ flips)) (c ^^^ flips) = some (c ^^^ flips) := by
    rw [hsyn, hflag.mp h, correct_zero]
  exact isCodewordOf_unique hc'' (isCodewordOf_of_isDecodedOf hw hx hkept hout)

/-! ### Linearity, and a larger `r` (R95) -/

theorem isCodewordOf_xor {r : Nat} {a b ca cb : BitVec w} (ha : IsCodewordOf r a ca) (hb : IsCodewordOf r b cb) :
    IsCodewordOf r (a ^^^ b) (ca ^^^ cb) := by
  have ⟨hplaceda, _, hlta⟩ := ha
  have ⟨hplacedb, _, hltb⟩ := hb
  refine isCodewordOf_of_indexXor (fun pos hpos hn => ?_) ?_ ?_
  · rw [bitAt_xor, bitAt_xor, hplaceda pos hpos hn, hplacedb pos hpos hn]
  · rw [indexXor_xor, indexXor_of_isCodewordOf ha, indexXor_of_isCodewordOf hb, Nat.xor_self]
  · rw [BitVec.toNat_xor]
    exact Nat.xor_lt_two_pow hlta hltb

/-- A word with no bit above `n` has the same syndrome in a longer walk. -/
theorem indexXor_extend {n n' : Nat} {x : BitVec w} (hn : n ≤ n') (hx : x.toNat < 2 ^ n) : indexXor n' x = indexXor n x := by
  refine Nat.eq_of_testBit_eq fun j => ?_
  rw [testBit_indexXor, testBit_indexXor]
  exact xorOver_extend hn fun i hi => by rw [bitAt_of_toNat_lt hx hi, Bool.and_false]

theorem nEncodedBits_mono {r r' : Nat} (h : r ≤ r') : nEncodedBits r ≤ nEncodedBits r' :=
  Nat.sub_le_sub_right (Nat.pow_le_pow_right (by decide) h) 1

/-- The codeword of legal data is its codeword for every larger `r`, whose further positions hold zeros. -/
theorem isCodewordOf_extend {r r' : Nat} {data c : BitVec w} (hr : r ≤ r') (h : IsCodewordOf r data c)
    (hdata : data.toNat < 2 ^ (nEncodedBits r - r)) : IsCodewordOf r' data c := by
  have ⟨hplaced, _, hlt⟩ := h
  have hmono := nEncodedBits_mono hr
  refine isCodewordOf_of_indexXor (fun pos hpos _ => ?_) ?_ (hlt.trans_le (Nat.pow_le_pow_right (by decide) hmono))
  · rcases Nat.lt_or_ge (nEncodedBits r) pos with hgt | hn
    · rw [bitAt_of_toNat_lt hlt hgt, bitAt_dataIndex_of_gt hdata hgt (isDataPos_iff.mp hpos).2]
    · exact hplaced pos hpos hn
  · exact (indexXor_extend hmono hlt).trans (indexXor_of_isCodewordOf h)

/-- Data that is legal for `r` is legal for every larger `r`. -/
theorem legalData_mono {r r' : BitVec Config.RW} {data : Data Config.W} (h : r.toNat ≤ r'.toNat) (hdata : LegalData r data) :
    LegalData r' data := by
  have hindex := dataIndex_mono (nEncodedBits_mono h)
  rw [bitLen_nEncodedBits, bitLen_nEncodedBits] at hindex
  exact Nat.lt_of_lt_of_le hdata (Nat.pow_le_pow_right (by decide) hindex)

/-- The XOR of legal data is legal. -/
theorem legalData_xor {r : BitVec Config.RW} {a b : Data Config.W} (ha : LegalData r a) (hb : LegalData r b) :
    LegalData r ⟨a.bits ^^^ b.bits⟩ := by
  rw [LegalData, BitVec.toNat_xor]
  exact Nat.xor_lt_two_pow ha hb

/-- Settles O38: the XOR of two codewords meets the equations of the XOR's codeword, and a codeword meets those for every larger
`r`. -/
theorem encodeIsLinear : Obligations.EncodeIsLinear := by
  refine ⟨fun r a b s hr ha hb => ?_, fun r r' data s hr hr' hle hdata => ?_⟩
  · obtain ⟨ca, hca, hexeca⟩ := encodeAnswersTheCodeword r a s hr ha
    obtain ⟨cb, hcb, hexecb⟩ := encodeAnswersTheCodeword r b s hr hb
    obtain ⟨t, hexec, hfault, hword⟩ := exec_encode_of_isCodewordOf hr (legalData_xor ha hb) (isCodewordOf_xor hca hcb) s
    exact ⟨_, _, t, hexeca, hexecb, hexec, rfl, rfl, hfault, hword⟩
  · obtain ⟨c, hc, hexec⟩ := encodeAnswersTheCodeword r data s hr hdata
    obtain ⟨t', hexec', hfault, hword⟩ :=
      exec_encode_of_isCodewordOf hr' (legalData_mono hle hdata) (isCodewordOf_extend hle hc hdata) s
    exact ⟨_, t', hexec, hexec', rfl, hfault, hword⟩

/-! ### The source's scenarios (R90) -/

/-- Settles O41: ENCODE of 0 is known at every `r`, and the other rows are evaluated on the stages, which read no state. -/
theorem sourceScenarios : Obligations.SourceScenarios := by
  intro s
  exact ⟨⟨_, execEncode_of_legal (r := 3) (data := ⟨0b1010⟩) (c := ⟨0x52⟩) (by decide) (by decide) s, rfl, rfl⟩,
    exec_decode_of_stages (out := ⟨0b1010⟩) (by decide) s, by decide,
    exec_encode_zero (r := 3) (by decide) s,
    exec_decode_of_stages (out := ⟨0⟩) (by decide) s⟩

end Sys2Proof.Machine

/-! ## The faults (60_exceptions.md): O26, O27, O28, O29, O30 -/

namespace Sys2Proof.Machine

variable {w : Nat}

/-- Settles O26: a step answers and settles the response port (O45), and the command it executes keeps the command wires (O23). -/
theorem causeWiresFollowTheFormula : Obligations.CauseWiresFollowTheFormula := by
  intro s
  obtain ⟨t, ht⟩ := everyCommandAnswers.2 s
  obtain ⟨hvalid, hop, hr, hword, -, -⟩ := commandsChangeTheResponsePortOnly (fetch s) s t ht
  obtain ⟨-, hcause, hfault, -, -⟩ := everyStepSettlesTheResponsePort s t ht
  rw [hop, hr, hword] at hcause
  exact ⟨t, ht, hcause, hfault, hvalid, hop, hr, hword⟩

/-! ### What the cause and fault wires say of a command -/

/-- Each cause has its own code, and none of them is 0 (R100). -/
theorem causeWire_injective : Function.Injective causeWire := by
  rintro (_ | _ | _ | _) (_ | _ | _ | _) <;> decide

/-- Every command answers, and its fault is on the cause wire and decides the fault wire (R104). -/
theorem exec_fault_wires (i : Instr) (s : State) : ∃ t, exec i s = .next t ∧
    t.rspCause = causeWire (commandFault i) ∧ t.rspFault = faultWire t.rspCause := by
  cases h : commandFault i with
  | some cause => exact ⟨_, exec_of_fault h s, rfl, rfl⟩
  | none =>
    obtain ⟨word, hasError, -, hexec⟩ := exec_of_legal h
    exact ⟨_, hexec s, rfl, rfl⟩

/-- The cause wire shows a cause exactly when it is the command's fault, and then the fault wire is raised. -/
theorem exec_cause_iff (i : Instr) (s : State) : ∃ t, exec i s = .next t ∧
    ∀ cause, (t.rspCause = causeCode cause ↔ commandFault i = some cause) ∧
      (t.rspCause = causeCode cause → t.rspFault = true) := by
  obtain ⟨t, ht, hcause, hfault⟩ := exec_fault_wires i s
  refine ⟨t, ht, fun cause => ⟨?_, fun h => ?_⟩⟩
  · rw [hcause]
    exact causeWire_injective.eq_iff (b := some cause)
  · rw [hfault, h]
    cases cause <;> rfl

/-- R_RANGE is the fault of either command exactly when `r > 6` (R101, R106). -/
theorem commandFault_eq_rRange_iff (i : Instr) : commandFault i = some .rRange ↔ 6 < (rOf i).toNat := by
  cases i with
  | encode r data =>
    rw [commandFault, encodeFault_W, rOf]
    split_ifs with hr
    · exact iff_of_true rfl hr
    · exact iff_of_false nofun hr
    · exact iff_of_false nofun hr
  | decode r encoded =>
    rw [commandFault, decodeFault_W, rOf]
    split_ifs with hr
    · exact iff_of_true rfl hr
    · exact iff_of_false nofun hr
    · exact iff_of_false nofun hr

theorem encodeFault_eq_dataRange_iff (r : Nat) (data : Data Config.W) :
    encodeFault r data = some .dataRange ↔ r ≤ 6 ∧ 2 ^ (2 ^ r - 1 - r) ≤ data.bits.toNat := by
  rw [encodeFault_W]
  split_ifs with hr hx
  · exact iff_of_false nofun fun h => Nat.not_lt.mpr h.1 hr
  · exact iff_of_true rfl ⟨Nat.not_lt.mp hr, hx⟩
  · exact iff_of_false nofun fun h => hx h.2

theorem decodeFault_eq_codewordRange_iff (r : Nat) (encoded : Encoded Config.W) :
    decodeFault r encoded = some .codewordRange ↔ r ≤ 6 ∧ 2 ^ (2 ^ r - 1) ≤ encoded.bits.toNat := by
  rw [decodeFault_W]
  split_ifs with hr hx
  · exact iff_of_false nofun fun h => Nat.not_lt.mpr h.1 hr
  · exact iff_of_true rfl ⟨Nat.not_lt.mp hr, hx⟩
  · exact iff_of_false nofun fun h => hx h.2

theorem encodeFault_ne_codewordRange (r : Nat) (data : Data w) : encodeFault r data ≠ some .codewordRange := by
  rw [encodeFault_eq]
  split_ifs <;> simp

theorem decodeFault_ne_dataRange (r : Nat) (encoded : Encoded w) : decodeFault r encoded ≠ some .dataRange := by
  rw [decodeFault_eq]
  split_ifs <;> simp

/-- A word reaches `2^k` exactly when it has a bit above index `k` (R102, R103). -/
theorem two_pow_le_toNat_iff {x : BitVec w} {k : Nat} : 2 ^ k ≤ x.toNat ↔ ∃ i, k < i ∧ bitAt x i = true := by
  constructor
  · intro h
    by_contra hno
    have habove : ∀ i, k < i → bitAt x i = false := fun i hi => Bool.eq_false_of_not_eq_true fun hbit => hno ⟨i, hi, hbit⟩
    exact Nat.not_lt.mpr h (toNat_lt_of_bitAt habove)
  · rintro ⟨i, hi, hbit⟩
    by_contra hlt
    rw [bitAt_of_toNat_lt (Nat.not_le.mp hlt) hi] at hbit
    exact Bool.false_ne_true hbit

/-! ### R_RANGE, and what it masks (R101, R106) -/

/-- The test by `R_MAX` at every width (R4, R101). -/
theorem nEncodedBits_gt_iff (w r : Nat) : nEncodedBits r > w ↔ r > Config.rMax w :=
  Nat.lt_sub_iff_add_lt.trans (Nat.log2_lt (Nat.succ_ne_zero w)).symm

/-- R_RANGE on the wires, for either command (R101). -/
theorem exec_rRange (i : Instr) (s : State) : ∃ t, exec i s = .next t ∧
    (t.rspCause = 1 ↔ nEncodedBits (rOf i).toNat > 64) ∧ (t.rspCause = 1 ↔ 7 ≤ (rOf i).toNat) ∧
    (t.rspCause = 1 → t.rspFault = true) := by
  obtain ⟨t, ht, hcause⟩ := exec_cause_iff i s
  obtain ⟨hiff, hfault⟩ := hcause .rRange
  have hr := hiff.trans (commandFault_eq_rRange_iff i)
  exact ⟨t, ht, hr.trans (codeword_exceeds_iff _).symm, hr, hfault⟩

/-- Settles O27: both precondition stages test R_RANGE first. -/
theorem rRangeFault : Obligations.RRangeFault :=
  ⟨nEncodedBits_gt_iff, Laws.rMax_W, fun r data => exec_rRange (.encode r data),
    fun r encoded => exec_rRange (.decode r encoded)⟩

/-- A command with one operand fault, `own`, answers R_RANGE's cause for `r > 6`, and otherwise 0 or the cause of `own`. -/
theorem exec_masks_of_own {i : Instr} {own : Cause}
    (hown : ∀ cause, commandFault i = some cause → cause = .rRange ∨ cause = own) (s : State) : ∃ t, exec i s = .next t ∧
    (6 < (rOf i).toNat → t.rspCause = 1) ∧ ((rOf i).toNat ≤ 6 → t.rspCause = 0 ∨ t.rspCause = causeCode own) := by
  obtain ⟨t, ht, hcause, -⟩ := exec_fault_wires i s
  refine ⟨t, ht, fun hr => ?_, fun hr => ?_⟩
  · rw [hcause, (commandFault_eq_rRange_iff i).mpr hr, causeWire, causeCode]
  · cases h : commandFault i with
    | none => exact .inl (hcause.trans (congrArg causeWire h))
    | some cause =>
      obtain rfl | rfl := hown cause h
      · exact absurd ((commandFault_eq_rRange_iff i).mp h) (Nat.not_lt.mpr hr)
      · exact .inr (hcause.trans (congrArg causeWire h))

/-- Settles O30: the only operand fault of ENCODE is DATA_RANGE, and that of DECODE is CODEWORD_RANGE. -/
theorem rRangeMasksTheOperandFaults : Obligations.RRangeMasksTheOperandFaults := by
  refine ⟨fun r data => exec_masks_of_own (i := .encode r data) (own := .dataRange) fun cause h => ?_,
    fun r encoded => exec_masks_of_own (i := .decode r encoded) (own := .codewordRange) fun cause h => ?_⟩
  · cases cause with
    | rRange => exact .inl rfl
    | dataRange => exact .inr rfl
    | codewordRange => exact absurd h (encodeFault_ne_codewordRange r.toNat data)
  · cases cause with
    | rRange => exact .inl rfl
    | dataRange => exact absurd h (decodeFault_ne_dataRange r.toNat encoded)
    | codewordRange => exact .inr rfl

/-! ### The operand faults (R102, R103) -/

/-- Settles O28: the cause is the fault of ENCODE's precondition stage, and DECODE's has no such fault. -/
theorem dataRangeFault : Obligations.DataRangeFault := by
  refine ⟨fun r data s => ?_, fun r encoded s => ?_, by decide⟩
  · obtain ⟨t, ht, hcause⟩ := exec_cause_iff (.encode r data) s
    obtain ⟨hiff, hfault⟩ := hcause .dataRange
    have hrange := hiff.trans (encodeFault_eq_dataRange_iff r.toNat data)
    exact ⟨t, ht, hrange, hrange.trans (and_congr_right fun _ => two_pow_le_toNat_iff), hfault⟩
  · obtain ⟨t, ht, hcause⟩ := exec_cause_iff (.decode r encoded) s
    exact ⟨t, ht, (hcause .dataRange).1.not.mpr (decodeFault_ne_dataRange r.toNat encoded)⟩

/-- Settles O29: as O28 for DECODE, whose operands below `2^n` are answered without a fault (O22). -/
theorem codewordRangeFault : Obligations.CodewordRangeFault := by
  refine ⟨fun r encoded s => ?_, fun r data s => ?_, by decide⟩
  · obtain ⟨t, ht, hcause⟩ := exec_cause_iff (.decode r encoded) s
    obtain ⟨hiff, hfault⟩ := hcause .codewordRange
    have hrange := hiff.trans (decodeFault_eq_codewordRange_iff r.toNat encoded)
    refine ⟨t, ht, hrange, hrange.trans (and_congr_right fun _ => two_pow_le_toNat_iff), hfault, fun hr hx => ?_⟩
    obtain ⟨out, -, hexec⟩ := decodeAnswersTheData r encoded s hr hx
    obtain rfl := Host.Outcome.next.inj (ht.symm.trans hexec)
    rfl
  · obtain ⟨t, ht, hcause⟩ := exec_cause_iff (.encode r data) s
    exact ⟨t, ht, (hcause .codewordRange).1.not.mpr (encodeFault_ne_codewordRange r.toNat data)⟩

end Sys2Proof.Machine

/-! ## Decoding with another `r` (43_codec_laws.md, R98): O40

A word that has no bit above `n(r)` and none above `n(r')` has the same syndrome, and its extractor the same data, for both. -/

namespace Sys2Proof.Machine

variable {w : Nat}

/-- Two walks that both reach every bit of a word compute the same syndrome. -/
theorem indexXor_eq_of_toNat_lt {n n' : Nat} {x : BitVec w} (hx : x.toNat < 2 ^ n) (hx' : x.toNat < 2 ^ n') :
    indexXor n' x = indexXor n x := by
  rcases Nat.le_total n n' with hle | hge
  · exact indexXor_extend hle hx
  · exact (indexXor_extend hge hx').symm

/-- Two walks that both reach every bit of a word extract the same data. -/
theorem extract_eq_of_toNat_lt {n n' : Nat} {c : BitVec w} (hw : n ≤ w) (hw' : n' ≤ w) (hc : c.toNat < 2 ^ n)
    (hc' : c.toNat < 2 ^ n') : extract n' c = extract n c := by
  rcases Nat.le_total n n' with hle | hge
  · exact extract_extend hle hw' hc
  · exact (extract_extend hge hw hc').symm

/-- The corrector sets no bit above `n`. -/
theorem correct_toNat_lt {r : Nat} {x c : BitVec w} (hw : nEncodedBits r ≤ w) (hx : x.toNat < 2 ^ nEncodedBits r)
    (hc : correct (indexXor (nEncodedBits r) x) x = some c) : c.toNat < 2 ^ nEncodedBits r := by
  have hle := indexXor_nEncodedBits_le r x
  rcases Nat.eq_zero_or_pos (indexXor (nEncodedBits r) x) with h0 | hpos
  · rw [h0, correct_zero] at hc
    exact Option.some.inj hc ▸ hx
  · rw [correct_eq_flip x hpos (hle.trans hw)] at hc
    exact Option.some.inj hc ▸ flip_toNat_lt hx hpos hle hw

/-- The flag says whether the operand is the codeword that the corrector reaches (R76). -/
theorem errorFlag_of_correct {r : Nat} {x data c : BitVec w} (hcode : IsCodewordOf r data c)
    (hc : correct (indexXor (nEncodedBits r) x) x = some c) :
    errorFlag (indexXor (nEncodedBits r) x) = decide (x ≠ c) := by
  refine decide_eq_decide.mpr (not_congr ⟨fun h0 => ?_, fun hxc => ?_⟩)
  · rw [h0, correct_zero] at hc
    exact Option.some.inj hc
  · rw [hxc]
    exact indexXor_of_isCodewordOf hcode

/-- A word that the corrector for `r` takes to a codeword of `r` decodes with any `r'` that reaches its bits to that codeword's
data: both have the syndrome of the word, hence the same corrected word and the same data in it. -/
theorem decodeWord_other_r {r r' : Nat} {data c x : BitVec w} (hw : nEncodedBits r ≤ w) (hw' : nEncodedBits r' ≤ w)
    (hcode : IsCodewordOf r data c) (hdata : data.toNat < 2 ^ (nEncodedBits r - r))
    (hc : correct (indexXor (nEncodedBits r) x) x = some c) (hx : x.toNat < 2 ^ nEncodedBits r)
    (hx' : x.toNat < 2 ^ nEncodedBits r') : decodeWord r' ⟨x⟩ = some (⟨data⟩, decide (x ≠ c)) := by
  have hsyn : indexXor (nEncodedBits r') x = indexXor (nEncodedBits r) x := indexXor_eq_of_toNat_lt hx hx'
  have hc' : correct (indexXor (nEncodedBits r') x) x = some c := by rw [hsyn, hc]
  have hextract : extract (nEncodedBits r') c = some data :=
    (extract_eq_of_toNat_lt hw hw' (correct_toNat_lt hw hx hc) (correct_toNat_lt hw' hx' hc')).trans
      (extract_of_isCodewordOf hw hcode hdata)
  rw [decodeWord_eq_of_stages hw' hc' hextract, hsyn, errorFlag_of_correct hcode hc]

/-- A codeword, clean or with one bit of `1..n` flipped, has no bit above `n`, and the corrector takes it to the codeword. -/
theorem correct_of_within_one_flip {r : Nat} {data c x : BitVec w} (hw : nEncodedBits r ≤ w) (hcode : IsCodewordOf r data c)
    (hx : x = c ∨ ∃ i, 1 ≤ i ∧ i ≤ nEncodedBits r ∧ x = c ^^^ oneBit w i) :
    x.toNat < 2 ^ nEncodedBits r ∧ correct (indexXor (nEncodedBits r) x) x = some c := by
  have ⟨_, _, hlt⟩ := hcode
  obtain rfl | ⟨i, h1, hn, rfl⟩ := hx
  · exact ⟨hlt, correct_of_isCodewordOf hcode⟩
  · have hback : c ^^^ oneBit w i ^^^ oneBit w i = c := by rw [BitVec.xor_assoc, BitVec.xor_self, BitVec.xor_zero]
    refine ⟨flip_toNat_lt hlt h1 hn hw, ?_⟩
    rw [correct_of_flip_isCodewordOf hw (hback.symm ▸ hcode) h1 hn, hback]

/-- Settles O40: below `2^n(r')` the decoder for `r'` does what the one for `r` does, which corrects a single flip; any other
word faults, and for `r' ≥ r` there is none. -/
theorem otherRGivesRightDataOrFaults : Obligations.OtherRGivesRightDataOrFaults := by
  intro r r' data s s' hr hr' hdata
  have hw := nEncodedBits_le_64 hr
  obtain ⟨c, hcode, hencode⟩ := encodeAnswersTheCodeword r data s hr hdata
  refine ⟨_, hencode, rfl, fun x hx => ?_⟩
  obtain ⟨hlt, hc⟩ := correct_of_within_one_flip hw hcode hx
  by_cases hlt' : LegalEncoded r' ⟨x⟩
  · have hword := decodeWord_other_r hw (nEncodedBits_le_64 hr') hcode hdata hc hlt hlt'
    obtain ⟨t', ht', hfault, hout, hflag⟩ := exec_decode_of_stages ⟨decodeFault_eq_none hr' hlt', hword⟩ s'
    exact ⟨t', ht', fun _ => hfault, fun hge => absurd hlt' (Nat.not_lt.mpr hge), fun _ => ⟨hfault, hout, hflag⟩⟩
  · have hfault := (decodeFault_eq_codewordRange_iff r'.toNat ⟨x⟩).mpr ⟨hr', Nat.not_lt.mp hlt'⟩
    refine ⟨_, execDecode_of_fault hfault s', fun hle => absurd ?_ hlt', fun _ => ⟨raiseFault_rspFault _ _ _, rfl⟩,
      fun hlt'' => absurd hlt'' hlt'⟩
    exact hlt.trans_le (Nat.pow_le_pow_right (by decide) (nEncodedBits_mono hle))

end Sys2Proof.Machine

/-! ## Runs of commands (70_reset_and_hazards.md, R123, R126; 43_codec_laws.md, R97): O44 -/

namespace Sys2Proof.Machine

/-- A run that begins with an answered transaction goes on from its state and samples its response first (R126). -/
theorem runSession_cons {i : Instr} {is : List Instr} {s t u : State} {rs : List Response} (ht : transact i s = .next t)
    (hrun : runSession is t = .next (u, rs)) : runSession (i :: is) s = .next (u, response t :: rs) := by
  simp only [runSession, ht, hrun]

/-- The induction over a run: when a transaction of any command in any state answers, with a response that is right for the
command, a run over any list of commands ends, and each response is right for the command in its place. -/
theorem runSession_forall₂ {Right : Instr → Response → Prop}
    (htransact : ∀ i s, ∃ t, transact i s = .next t ∧ Right i (response t)) (is : List Instr) (s : State) :
    ∃ u rs, runSession is s = .next (u, rs) ∧ List.Forall₂ Right is rs := by
  induction is generalizing s with
  | nil => exact ⟨s, [], rfl, .nil⟩
  | cons i is ih =>
    obtain ⟨t, ht, hright⟩ := htransact i s
    obtain ⟨u, rs, hrun, hrights⟩ := ih t
    exact ⟨u, response t :: rs, runSession_cons ht hrun, .cons hright hrights⟩

/-- Settles O44: whatever state the commands before have left, a transaction has the defined part of the response that it has
in any other state (O43). -/
theorem runsAnswerEachCommandAsIfAlone : Obligations.RunsAnswerEachCommandAsIfAlone := by
  obtain ⟨hexec, hobserved⟩ := responseDependsOnTheCommandOnly
  refine runSession_forall₂ fun i s => ?_
  obtain ⟨t, -, ht, -, -⟩ := hobserved i s s
  refine ⟨t, ht, fun u => ?_⟩
  obtain ⟨tu, t', htu, ht', heq⟩ := hobserved i u s
  obtain ⟨hpresented, hpresent⟩ := hexec i u
  obtain rfl : t' = t := Host.Outcome.next.inj (ht'.symm.trans ht)
  exact ⟨tu, htu, hpresent ▸ hpresented ▸ htu, heq⟩

end Sys2Proof.Machine

/-! ## Numbers that are command words, and table words on the command port (30_encoding.md, sections 1 and 2): O7, O9 -/

namespace Sys2Proof.Machine

/-- Settles O7: the four numbers are the command words of the commands. -/
theorem specWordsDecode : Obligations.SpecWordsDecode :=
  ⟨decodeNumber_commandWord (.encode 3 ⟨0xA⟩), decodeNumber_commandWord (.decode 3 ⟨0x42⟩),
    decodeNumber_commandWord (.encode 6 ⟨0x123456789ABCDE⟩), decodeNumber_commandWord (.decode 255 ⟨0⟩)⟩

/-- A number that decodes is the command word of the command it decodes to (O6). -/
theorem commandWord_toNat_of_decodeNumber {v : Nat} {i : Instr} (h : decodeNumber v = .ok i) : (commandWord i).toNat = v := by
  obtain ⟨hfits, hwide⟩ := numbersThatDecode v
  rcases Nat.lt_or_ge v (2 ^ 73) with hlt | hge
  · obtain ⟨j, hj, hv⟩ := hfits hlt
    obtain rfl : i = j := Except.ok.inj (h.symm.trans hj)
    exact hv
  · exact absurd (h.symm.trans (hwide hge)) nofun

/-- A table word that decodes stands for a number that decodes. -/
theorem decodeNumber_of_decodeTableWord {nbits w : Nat} {i : Instr} (h : decodeTableWord nbits w = some i) :
    decodeNumber (w % 2 ^ nbits) = .ok i := by
  rw [decodeTableWord] at h
  cases hv : decodeNumber (w % 2 ^ nbits) with
  | ok j =>
    rw [hv] at h
    rw [Option.some.inj h]
  | error e =>
    rw [hv] at h
    nomatch h

/-- Placing a table word that decodes is presenting its command (log 6). -/
theorem withFetchWord_eq_present {nbits w : Nat} {i : Instr} (h : decodeTableWord nbits w = some i) (s : State) :
    s.withFetchWord nbits w = present i s := by
  rw [State.withFetchWord, ← commandWord_toNat_of_decodeNumber (decodeNumber_of_decodeTableWord h), BitVec.ofNat_toNat,
    BitVec.setWidth_eq, present]

/-- Settles O9: the table word's command is presented, and a transaction executes the command that is presented (R31). -/
theorem fetchWordIsRunNext : Obligations.FetchWordIsRunNext := by
  intro s nbits w i h
  rw [withFetchWord_eq_present h]
  exact ⟨transact_eq_exec i s, present_eq i s⟩

end Sys2Proof.Machine
